-- ==== Sys2Proof/Word.lean ====
section
/-! DEFINITION. The two widths of the frame engine (00_scope.md R5): a byte of 8 bits and a halfword of 16 bits, both
unsigned. Every byte the block takes in or gives out is a `Byte`; ACC and every CRC is a `Half`. -/

namespace Sys2Proof

/-- `u8` (R5). Bit 0 is the least significant bit. -/
abbrev Byte := BitVec 8

/-- `u16` (R5, R6): closed under logical shift, XOR and NOT; no operation overflows and none is signed. -/
abbrev Half := BitVec 16

end Sys2Proof
end

