-- ==== Sys2Proof/Syntax.lean ====
section
/-! DEFINITION. The five operations of the frame engine, one constructor per row of spec/opcode_table.json
(30_encoding.md R41, R43). The block has no registers to name and no addresses: an operation's operands are the bytes the
request carries. -/

namespace Sys2Proof

/-- The six argument operand bytes ARG0..ARG5 of a FRAME_ENCODE (R43). -/
structure Args where
  a0 : Byte
  a1 : Byte
  a2 : Byte
  a3 : Byte
  a4 : Byte
  a5 : Byte
deriving DecidableEq, Repr

/-- The eight bytes IN0..IN7 of one received inbound frame, in receive order (R43, R55, R78). -/
structure InFrame where
  b0 : Byte
  b1 : Byte
  b2 : Byte
  b3 : Byte
  b4 : Byte
  b5 : Byte
  b6 : Byte
  b7 : Byte
deriving DecidableEq, Repr

/-- A legal request, decoded (R41). -/
inductive Instr where
  /-- OP 0x1, no operand bytes (R61). -/
  | crcInit
  /-- OP 0x2, one operand byte D (R62). -/
  | crcUpdate (d : Byte)
  /-- OP 0x3, no operand bytes (R63). -/
  | crcFinal
  /-- OP 0x4 with the count field CNT, and ADDR, CMD, ARG0..ARG5 (R70, R76). -/
  | frameEncode (cnt : Nat) (addr cmd : Byte) (args : Args)
  /-- OP 0x5, IN0..IN7 (R78, R81). -/
  | frameDecode (frame : InFrame)
deriving DecidableEq, Repr

end Sys2Proof
end

