-- ==== Sys2Proof/WellFormed.lean ====
section
/-! DEFINITION. Which terms of `Instr` stand for a request. Every operand is a byte by its type; the one check is that the
argument count fits the four bits of the CNT field (30_encoding.md R40, R44). -/

namespace Sys2Proof

/-- CNT is 0 to 15 (R40, R44); every other operation has no field that could be out of range. -/
def Instr.wellFormed : Instr → Bool
  | .crcInit => true
  | .crcUpdate _ => true
  | .crcFinal => true
  | .frameEncode cnt _ _ _ => decide (cnt ≤ 15)
  | .frameDecode _ => true

end Sys2Proof
end

