-- ==== Sys2Proof/Decode.lean ====
section
/-! DEFINITION. Requests as bytes (30_encoding.md sections 1 to 3): the fields of the op byte, the decoder, total on any
byte stream (R46), and the encoder written from the same tables (R39, R40, R43). -/

namespace Sys2Proof

/-- `OP = op[3:0]` (R40). -/
def opField (op : Byte) : Nat := (op.extractLsb' 0 4).toNat

/-- `CNT = op[7:4]` (R40). -/
def cntField (op : Byte) : Nat := (op.extractLsb' 4 4).toNat

/-- The op byte with the given CNT (bits 7:4) and OP (bits 3:0) (R40, R70). -/
def opByte (cnt op : Nat) : Byte := BitVec.ofNat 4 cnt ++ BitVec.ofNat 4 op

/-- The OP values of R41; all others are illegal (R42). -/
def legalOp (op : Nat) : Bool := decide (1 ≤ op ∧ op ≤ 5)

/-- `operand_len(OP)`: how many operand bytes follow an op byte, whatever its CNT (R39, R44). -/
def operandLen : Nat → Nat
  | 2 => 1
  | 4 => 8
  | 5 => 8
  | _ => 0

/-- Why a request is answered without being performed (R46, R82). Neither is a model fault. -/
inductive Reject where
  /-- OP is 0x0 or 0x6 to 0xF (R42). -/
  | illegalOp
  /-- CNT is not 0 and OP is 0x1, 0x2, 0x3 or 0x5 (R44). -/
  | reservedField
deriving DecidableEq, Repr

/-- What the block makes of the bytes at the head of the request stream (R46). -/
inductive Decoded where
  /-- One whole legal request, and the bytes after it. -/
  | request (i : Instr) (rest : List Byte)
  /-- One whole request that is answered with an error, and the bytes after it (its operand bytes are consumed). -/
  | rejected (why : Reject) (rest : List Byte)
  /-- Not all bytes of the request have arrived: it has not begun (R106). -/
  | incomplete
deriving DecidableEq, Repr

/-- Test 2 of R46: an operation other than FRAME_ENCODE needs CNT = 0. -/
def onlyCntZero (cnt : Nat) (i : Instr) (rest : List Byte) : Decoded :=
  if cnt = 0 then .request i rest else .rejected .reservedField rest

/-- CRC_UPDATE's one operand byte (R43). -/
def decodeUpdate (cnt : Nat) : List Byte → Decoded
  | d :: rest => onlyCntZero cnt (.crcUpdate d) rest
  | [] => .incomplete

/-- FRAME_ENCODE's eight operand bytes ADDR, CMD, ARG0..ARG5 (R43, R70); every CNT is legal (R44). -/
def decodeFrameEncode (cnt : Nat) : List Byte → Decoded
  | addr :: cmd :: a0 :: a1 :: a2 :: a3 :: a4 :: a5 :: rest =>
    .request (.frameEncode cnt addr cmd ⟨a0, a1, a2, a3, a4, a5⟩) rest
  | _ => .incomplete

/-- FRAME_DECODE's eight operand bytes IN0..IN7 (R43, R78). -/
def decodeFrameDecode (cnt : Nat) : List Byte → Decoded
  | b0 :: b1 :: b2 :: b3 :: b4 :: b5 :: b6 :: b7 :: rest =>
    onlyCntZero cnt (.frameDecode ⟨b0, b1, b2, b3, b4, b5, b6, b7⟩) rest
  | _ => .incomplete

/-- The rest of a request, by its OP (R41, R42). A rejected request consumes the operand bytes R39 counts for its OP. -/
def decodeBody (op cnt : Nat) (bs : List Byte) : Decoded :=
  match op with
  | 1 => onlyCntZero cnt .crcInit bs
  | 2 => decodeUpdate cnt bs
  | 3 => onlyCntZero cnt .crcFinal bs
  | 4 => decodeFrameEncode cnt bs
  | 5 => decodeFrameDecode cnt bs
  | _ => .rejected .illegalOp bs

/-- R46: reads one op byte, then `operand_len(OP)` further bytes; that is one request. -/
def decode : List Byte → Decoded
  | [] => .incomplete
  | op :: bs => decodeBody (opField op) (cntField op) bs

/-- The bytes of a request: the op byte, then its operand bytes in index order (R39, R43, R70, R78). -/
def encode : Instr → List Byte
  | .crcInit => [opByte 0 1]
  | .crcUpdate d => [opByte 0 2, d]
  | .crcFinal => [opByte 0 3]
  | .frameEncode cnt addr cmd a => [opByte cnt 4, addr, cmd, a.a0, a.a1, a.a2, a.a3, a.a4, a.a5]
  | .frameDecode f => [opByte 0 5, f.b0, f.b1, f.b2, f.b3, f.b4, f.b5, f.b6, f.b7]

/-- The n bytes of a number, least significant byte first: byte k is bits 8k+7 to 8k. -/
def bytesOfWord (n w : Nat) : List Byte := (List.range n).map fun k => BitVec.ofNat 8 (w >>> (8 * k))

/-- The bytes of the one request whose bits are w, numbered as spec/opcode_table.json numbers them: byte 0 (the op byte) is
bits 7:0. Bits from nbits on are 0. The request ends where its op byte says (R39). -/
def tableWordBytes (nbits w : Nat) : List Byte :=
  (bytesOfWord 9 (w % 2 ^ nbits)).take (1 + operandLen (opField (BitVec.ofNat 8 (w % 2 ^ nbits))))

/-- The instruction the decoder reads from such a word; none where the request is answered with an error. -/
def decodeTableWord (nbits w : Nat) : Option Instr :=
  match decode (tableWordBytes nbits w) with
  | .request i _ => some i
  | .rejected _ _ => none
  | .incomplete => none

end Sys2Proof
end

