-- ==== Sys2Proof/Config.lean ====
section
/-! DEFINITION. What is fixed for one frame engine: the two named Boolean parameters of 00_scope.md R4, and the one free
value. Every other size and constant is fixed by the spec (R2, R3) and stands with the operation that uses it. -/

namespace Sys2Proof

/-- The two parameters of R4, which stand where the source is silent. A machine state carries the setting it was built
with (log entry 1), so a statement about every state is a statement about every setting. -/
structure Config where
  /-- `ACC_RESET_KNOWN` (R4, R20, R21). -/
  accResetKnown : Bool
  /-- `EMPTY_ARGS_TERMINATOR` (R4, R75). -/
  emptyArgsTerminator : Bool
deriving DecidableEq, Repr

/-- FREE VALUE (log entry 3): what the 16 bits of ACC hold while ACC "holds no value" (R21), after the n-th reset of a
block with `ACC_RESET_KNOWN = false`. Nothing constrains it, and no request can read it: a read before CRC_INIT is the
model fault of R21. -/
opaque Config.unwrittenAcc : Nat → Half

end Sys2Proof
end

