-- ==== Sys2Proof/Machine/ResetValues.lean ====
section
/-! DEFINITION. The values reset gives: the parameters a block is built with by default and the value of ACC. They stand
here, before the state, because State.reset is made of them. -/

namespace Sys2Proof.Machine

/-- The defaults of R4: both parameters `true` (log entry 2). -/
def defaultConfig : Config := ⟨true, true⟩

/-- The accumulator's initial value (R2), which CRC_INIT writes (R61). -/
def accInit : Half := 0xFFFF#16

/-- What ACC holds after the n-th reset (R20, R21): the initial value under `ACC_RESET_KNOWN = true`, else no value (a free
value, which nothing can read; log entry 3). -/
def accAfterReset (cfg : Config) (n : Nat) : Half :=
  if cfg.accResetKnown then accInit else Config.unwrittenAcc n

end Sys2Proof.Machine
end

