-- ==== Sys2Proof/Machine/State.lean ====
section
/-! DEFINITION. The state of the frame engine with its host interface, as plain data. The block's own state is the pair
(ACC, acc_valid) of 10_state.md R24; beside it stand the parameters the block was built with (R4), what the host has sent
and the block has not taken in, and the responses the host has received (R108). There is no memory, no program counter, no
register file, no flags and no mode (R13, R14, R15, R25, R84, R89). -/

namespace Sys2Proof.Machine

/-- Why the machine stops. -/
inductive Fault where
  /-- `UnwrittenAcc` (R21): a CRC_UPDATE or CRC_FINAL while ACC holds no value. Raised by `State.withAcc` only, under
  `ACC_RESET_KNOWN = false` only. SAFE: no claim can rest on a value the block does not promise. -/
  | unwrittenAcc
deriving DecidableEq, Repr

/-- Why the model has no meaning for an instruction. -/
inductive Refusal where
  /-- An arm of `exec` that has no meaning yet. Raised by no arm of this model. SAFE: nothing is claimed of it. -/
  | notModelled (mnemonic : String)
deriving DecidableEq, Repr

/-- The four statuses of R49; the values 0x04 to 0xFF are never produced (R51). `Status.code` gives the byte. -/
inductive Status where
  /-- The operation was performed. -/
  | ok
  /-- FRAME_DECODE: the transmitted CRC disagrees with the recomputed one (R80). -/
  | crcFail
  /-- OP is illegal (R42). -/
  | illegalOp
  /-- CNT is not 0 where it must be (R44). -/
  | reservedField
deriving DecidableEq, Repr

/-- One response: a status and its data bytes, byte 0 first (R47). -/
structure Response where
  status : Status
  data : List Byte
deriving DecidableEq, Repr

/-- What the host does to the block (R93): it sends a byte, or the platform resets it (R98). -/
inductive HostEvent where
  /-- One request byte, in transmission order (R39). -/
  | byte (b : Byte)
  /-- A reset after the block has answered every request that is whole before it. A request that is only partly sent at
  that point is lost (R98, R106). -/
  | reset
  /-- A reset that lands while the last whole request before it is being performed, before its response: that request is
  aborted (R98). Where no whole request stands before it, it acts as `reset`. -/
  | resetInFlight
deriving DecidableEq, Repr

/-- What the block does next with the head of the host's events. -/
inductive Fetched where
  /-- A reset acts; any request in progress is lost with it (R98). -/
  | reset (rest : List HostEvent)
  /-- A whole legal request is performed. -/
  | request (i : Instr) (rest : List HostEvent)
  /-- A whole request is answered with an error. -/
  | rejected (why : Reject) (rest : List HostEvent)
  /-- Nothing whole has arrived: the block waits (R97, R106). -/
  | hold
deriving DecidableEq, Repr

structure State where
  /-- The CRC accumulator, before the final complement (R16). -/
  acc : Half
  /-- `acc_valid` (R21). It exists under `ACC_RESET_KNOWN = false` only; under `true` nothing reads or writes it and it
  stays false (log entry 4). -/
  accValid : Bool
  /-- The parameters of R4. No step changes them. -/
  cfg : Config
  /-- What the host has sent, in order, and the block has not taken in. The bytes of a request in progress stand at the
  head (R106). -/
  input : List HostEvent
  /-- The responses returned so far, oldest first (R30, R108). -/
  responses : List Response
  /-- The MODEL's own counter: how many resets have acted, the argument of the free value `Config.unwrittenAcc`. -/
  resets : Nat
deriving DecidableEq, Repr

/-- A block with the given parameters right after reset (R96): no request in progress, nothing answered. -/
def State.resetWith (cfg : Config) : State where
  acc := accAfterReset cfg 0
  accValid := false
  cfg := cfg
  input := []
  responses := []
  resets := 0

/-- The machine right after reset, with the parameters at their defaults (R4, R96). -/
def State.reset : State := State.resetWith defaultConfig

end Sys2Proof.Machine
end

