-- ==== Sys2Proof/Machine/Flags.lean ====
section
/-! DEFINITION. The block has no flags register (10_state.md R15): the outcome of a request is the status byte of its
response. Here are the status codes and the bytes of a response (30_encoding.md R47, R49). -/

namespace Sys2Proof.Machine

/-- The status codes of R49. -/
def Status.code : Status → Byte
  | .ok => 0x00#8
  | .crcFail => 0x01#8
  | .illegalOp => 0x02#8
  | .reservedField => 0x03#8

/-- The status of a request that is answered without being performed (R46, R82). -/
def rejectStatus : Reject → Status
  | .illegalOp => .illegalOp
  | .reservedField => .reservedField

/-- R80: OK when the two CRCs are equal as 16-bit values, CRC_FAIL otherwise; nothing else affects it. -/
def frameStatus (crcCalc crcRx : Half) : Status := if crcCalc = crcRx then .ok else .crcFail

/-- A response as the bytes the host receives: the status byte, then the data bytes (R47). -/
def Response.bytes (r : Response) : List Byte := r.status.code :: r.data

end Sys2Proof.Machine
end

