-- ==== Sys2Proof/Machine/Operands.lean ====
section
/-! DEFINITION. Operand forms and byte order: the 16-bit packing (00_scope.md R8), the effective argument count, the
argument slots and the outbound payload (41_frame.md R71 to R75), and the parts of an inbound frame (R79). -/

namespace Sys2Proof.Machine

/-- `lo8(a) = a[7:0]` (R6). -/
def lo8 (a : Half) : Byte := a.extractLsb' 0 8

/-- `hi8(a) = a[15:8]` (R6). -/
def hi8 (a : Half) : Byte := a.extractLsb' 8 8

/-- `le16(a) = [lo8(a), hi8(a)]` (R8): the order of the frame CRC field and of every 16-bit response value (R27, R50). -/
def le16 (a : Half) : List Byte := [lo8 a, hi8 a]

/-- `from_le16(x, y) = zext_16(x) OR (zext_16(y) << 8)` (R8). -/
def fromLe16 (x y : Byte) : Half := x.setWidth 16 ||| (y.setWidth 16 <<< 8)

/-- `N = min(CNT, 6)`: arguments beyond the 6th are dropped without a status (R74). -/
def effectiveCount (cnt : Nat) : Nat := min cnt 6

/-- `slot(k)` of R75, for a slot whose operand byte is `arg`: the argument, the terminator 0x00 or the padding 0x20. -/
def slotByte (emptyArgsTerminator : Bool) (n k : Nat) (arg : Byte) : Byte :=
  if k < n then arg
  else if k = n ∧ 0 < n then 0x00#8
  else if k = n ∧ n = 0 ∧ emptyArgsTerminator = true then 0x00#8
  else 0x20#8

/-- The 8-byte outbound payload: ADDR, CMD and the six slots, slot k at byte 2 + k (R71, R72). -/
def outboundPayload (emptyArgsTerminator : Bool) (n : Nat) (addr cmd : Byte) (a : Args) : List Byte :=
  [addr, cmd, slotByte emptyArgsTerminator n 0 a.a0, slotByte emptyArgsTerminator n 1 a.a1,
    slotByte emptyArgsTerminator n 2 a.a2, slotByte emptyArgsTerminator n 3 a.a3,
    slotByte emptyArgsTerminator n 4 a.a4, slotByte emptyArgsTerminator n 5 a.a5]

/-- The 6 payload bytes of an inbound frame, in index order and uninterpreted (R28, R55, R79). -/
def inboundPayload (f : InFrame) : List Byte := [f.b0, f.b1, f.b2, f.b3, f.b4, f.b5]

/-- `crc_rx = from_le16(IN6, IN7)` (R79). -/
def crcRx (f : InFrame) : Half := fromLe16 f.b6 f.b7

end Sys2Proof.Machine
end

