-- ==== Sys2Proof/Machine/Ops.lean ====
section
/-! DEFINITION. The shared operations: the CRC function (40_crc.md section 1), access to ACC (10_state.md section 4),
completing a request, answering one with an error, the reset event, and taking the next request from the host's events. -/

namespace Sys2Proof.Machine

/-! ### The CRC function -/

/-- One bit step (R59): the shift is logical (R6), the feedback constant is 0x8408 (R2). -/
def crcStepBit (a : Half) (d : Bool) : Half :=
  if (a.getLsbD 0 ^^ d) = true then (a >>> 1) ^^^ 0x8408#16 else a >>> 1

/-- One byte step (R58): the 8 bits of the byte, least significant first (R29). -/
def crcStepByte (a : Half) (b : Byte) : Half :=
  (List.range 8).foldl (fun a i => crcStepBit a (b.getLsbD i)) a

/-- The accumulator after a byte sequence, byte 0 first (R57, R7). -/
def crcAccum (a : Half) (s : List Byte) : Half := s.foldl crcStepByte a

/-- `crc16(s)` (R57): total, for every length including 0. -/
def crc16 (s : List Byte) : Half := ~~~ (crcAccum accInit s)

/-! ### The accumulator -/

/-- ACC holds a value (R20, R21). -/
def State.accReadable (s : State) : Bool := s.cfg.accResetKnown || s.accValid

/-- `ACC <- v` (R9, R17). -/
def State.setAcc (v : Half) (s : State) : State := { s with acc := v }

/-- `acc_valid <- 1`, only when `ACC_RESET_KNOWN = false` (R61). -/
def State.markAccWritten (s : State) : State := { s with accValid := s.accValid || !s.cfg.accResetKnown }

/-- A read of ACC: the model fault `UnwrittenAcc` while it holds no value (R21, R62, R63, R82, U5, D8), which is under
`ACC_RESET_KNOWN = false` only. -/
def State.withAcc (s : State) (k : Half → Host.Outcome State Fault Refusal) : Host.Outcome State Fault Refusal :=
  if s.accReadable = true then k s.acc else .fault .unwrittenAcc

/-! ### Responses -/

/-- `respond(status, data)` (R9, R47): one response, after all earlier ones (R30). -/
def State.respond (st : Status) (data : List Byte) (s : State) : State :=
  { s with responses := s.responses ++ [⟨st, data⟩] }

/-- `raise E` for a request answered with an error (R9, R42, R44, R85): its status, empty data, and no state change. This is
the block's whole error mechanism: no trap, no saved state, no mode, no handler and so no return (R86, R88). -/
def State.raise (why : Reject) (s : State) : State := s.respond (rejectStatus why) []

/-! ### The host's side -/

/-- What is left of the host's events once a request, or a reset, has been taken in. -/
def State.setInput (rest : List HostEvent) (s : State) : State := { s with input := rest }

/-- The host sends further bytes (R93, R106). -/
def State.send (bs : List Byte) (s : State) : State := { s with input := s.input ++ bs.map HostEvent.byte }

/-- The reset event (R96, R98): ACC and acc_valid take their reset values and the request in progress is gone. Responses
already returned stay with the host. -/
def State.applyReset (rest : List HostEvent) (s : State) : State :=
  { s with acc := accAfterReset s.cfg (s.resets + 1), accValid := false, input := rest, resets := s.resets + 1 }

/-- The bytes before the first reset. -/
def leadingBytes : List HostEvent → List Byte
  | .byte b :: es => b :: leadingBytes es
  | .reset :: _ => []
  | .resetInFlight :: _ => []
  | [] => []

/-- The events from the first reset on. -/
def afterBytes : List HostEvent → List HostEvent
  | .byte _ :: es => afterBytes es
  | .reset :: es => .reset :: es
  | .resetInFlight :: es => .resetInFlight :: es
  | [] => []

/-- A whole request is at the head, `bs` are the bytes after it and `tail` is what follows those: the reset that lands
before the response of exactly this request, if there is one, gives what is left after it (R98). -/
def abortedBy (bs : List Byte) (tail : List HostEvent) : Option (List HostEvent) :=
  match bs, tail with
  | [], .resetInFlight :: rest => some rest
  | _, _ => none

/-- What the block does next (R46, R98, R106). -/
def fetch (es : List HostEvent) : Fetched :=
  match decode (leadingBytes es) with
  | .request i bs =>
    match abortedBy bs (afterBytes es) with
    | some rest => .reset rest
    | none => .request i (bs.map HostEvent.byte ++ afterBytes es)
  | .rejected why bs =>
    match abortedBy bs (afterBytes es) with
    | some rest => .reset rest
    | none => .rejected why (bs.map HostEvent.byte ++ afterBytes es)
  | .incomplete =>
    match afterBytes es with
    | [] => .hold
    | _ :: rest => .reset rest

end Sys2Proof.Machine
end

