-- ==== Sys2Proof/Machine/Checksum.lean ====
section
/-! DEFINITION. The streaming requests of the checksum engine (40_crc.md section 2). -/

namespace Sys2Proof.Machine

/-- CRC_INIT (R61): starts a new stream; a partial accumulator is discarded. -/
def execCrcInit (s : State) : Host.Outcome State Fault Refusal :=
  .next (((s.setAcc accInit).markAccWritten).respond .ok [])

/-- CRC_UPDATE (R62): hashes one data byte; every byte is valid. -/
def execCrcUpdate (d : Byte) (s : State) : Host.Outcome State Fault Refusal :=
  s.withAcc fun a => .next ((s.setAcc (crcStepByte a d)).respond .ok [])

/-- CRC_FINAL (R63): returns the complement of ACC, low byte first, and keeps ACC (R66). -/
def execCrcFinal (s : State) : Host.Outcome State Fault Refusal :=
  s.withAcc fun a => .next (s.respond .ok (le16 (~~~a)))

end Sys2Proof.Machine
end

