-- ==== Sys2Proof/Machine/FrameCodec.lean ====
section
/-! DEFINITION. The frame codec (41_frame.md). Both requests are functions of their operands alone: they neither read nor
write ACC (R23) and give the payload bytes no meaning (R68). -/

namespace Sys2Proof.Machine

/-- FRAME_ENCODE (R76): the 8-byte payload, then its CRC, low byte first (R54, R69). No operand value and no CNT is an
error. -/
def execFrameEncode (cnt : Nat) (addr cmd : Byte) (args : Args) (s : State) : Host.Outcome State Fault Refusal :=
  let p := outboundPayload s.cfg.emptyArgsTerminator (effectiveCount cnt) addr cmd args
  .next (s.respond .ok (p ++ le16 (crc16 p)))

/-- FRAME_DECODE (R81): the payload and both CRCs are returned under either status (R48). -/
def execFrameDecode (f : InFrame) (s : State) : Host.Outcome State Fault Refusal :=
  let crcCalc := crc16 (inboundPayload f)
  .next (s.respond (frameStatus crcCalc (crcRx f)) (inboundPayload f ++ le16 (crcRx f) ++ le16 crcCalc))

end Sys2Proof.Machine
end

