-- ==== Sys2Proof/Machine/Dispatch.lean ====
section
/-! DEFINITION. The meaning of each operation, one arm per constructor. -/

namespace Sys2Proof.Machine

def exec (i : Instr) (s : State) : Host.Outcome State Fault Refusal :=
  match i with
  | .crcInit => Sys2Proof.Machine.execCrcInit s
  | .crcUpdate d => Sys2Proof.Machine.execCrcUpdate d s
  | .crcFinal => Sys2Proof.Machine.execCrcFinal s
  | .frameEncode cnt addr cmd args => Sys2Proof.Machine.execFrameEncode cnt addr cmd args s
  | .frameDecode frame => Sys2Proof.Machine.execFrameDecode frame s

end Sys2Proof.Machine
end

