-- ==== Sys2Proof/Machine/Step.lean ====
section
/-! DEFINITION. One step: the block takes in one whole request and answers it (20_memory.md R32), or a reset acts, or the
block waits. -/

namespace Sys2Proof.Machine

/-- R24, R30: one request, one response. A request that has not wholly arrived is a stuck state, not a fault (R106): the
step leaves everything as it is (log entry 7). -/
def step (s : State) : Host.Outcome State Fault Refusal :=
  match fetch s.input with
  | .request i rest => exec i (s.setInput rest)
  | .rejected why rest => .next ((s.setInput rest).raise why)
  | .reset rest => .next (s.applyReset rest)
  | .hold => .next s

/-- The host has sent exactly the request whose bits are w (log entry 9), so that the next step performs it. -/
def State.withFetchWord (s : State) (nbits w : Nat) : State :=
  s.setInput ((tableWordBytes nbits w).map HostEvent.byte)

end Sys2Proof.Machine
end

