-- ==== Sys2Proof/Machine/Assembler.lean ====
section
/-! DEFINITION. The assembler of 30_encoding.md R53 and the pseudo-instructions of R56: how a host program's lines become
request bytes. It is a convenience of the host; the block sees only the bytes. -/

namespace Sys2Proof.Machine

/-- One line of a request sequence (R53), or a pseudo-instruction (R56). -/
inductive AsmLine where
  | crcInit
  | crcUpdate (d : Byte)
  | crcFinal
  /-- `FRAME_ENCODE addr, cmd, a0, ..., ak-1`, k from 0. -/
  | frameEncode (addr cmd : Byte) (args : List Byte)
  | frameDecode (frame : List Byte)
  /-- `.byte v`: a raw byte, for writing illegal or reserved requests. -/
  | raw (v : Byte)
  /-- `CRC16 b0, ..., bn-1`. -/
  | crc16 (bytes : List Byte)
  /-- `CHECK_FRAME b0, ..., b7`. -/
  | checkFrame (frame : List Byte)
deriving DecidableEq, Repr

/-- `FRAME_ENCODE` with its argument list (R53): CNT is k, at most six argument bytes are sent, and each remaining slot is
sent as 0x20. For k > 15 the assembler refuses. -/
def asmFrameEncode (addr cmd : Byte) (args : List Byte) : Option (List Byte) :=
  if args.length ≤ 15 then
    some (opByte args.length 4 :: addr :: cmd :: (args.take 6 ++ List.replicate (6 - args.length) 0x20#8))
  else none

/-- `FRAME_DECODE` takes exactly 8 bytes; the assembler refuses any other count (R53). -/
def asmFrameDecode (frame : List Byte) : Option (List Byte) :=
  if frame.length = 8 then some (opByte 0 5 :: frame) else none

/-- The requests `CRC16 b0, ..., bn-1` stands for (R56). -/
def crc16Requests (bytes : List Byte) : List Instr := .crcInit :: (bytes.map Instr.crcUpdate ++ [.crcFinal])

/-- The request bytes of a line; none where the assembler refuses it (R53, R56). -/
def AsmLine.bytes : AsmLine → Option (List Byte)
  | .crcInit => some (encode .crcInit)
  | .crcUpdate d => some (encode (.crcUpdate d))
  | .crcFinal => some (encode .crcFinal)
  | .frameEncode addr cmd args => asmFrameEncode addr cmd args
  | .frameDecode frame => asmFrameDecode frame
  | .raw v => some [v]
  | .crc16 bytes => some ((crc16Requests bytes).flatMap encode)
  | .checkFrame frame => asmFrameDecode frame

/-! ### The text of a line (R53): a mnemonic, then numbers separated by commas; `;` begins a comment -/

/-- The value of a hexadecimal or decimal digit. -/
def digitValue (c : Char) : Option Nat :=
  if '0' ≤ c ∧ c ≤ '9' then some (c.toNat - '0'.toNat)
  else if 'a' ≤ c ∧ c ≤ 'f' then some (c.toNat - 'a'.toNat + 10)
  else if 'A' ≤ c ∧ c ≤ 'F' then some (c.toNat - 'A'.toNat + 10)
  else none

/-- The digits read so far, then the rest. -/
def readDigits (base : Nat) : Nat → List Char → Option Nat
  | n, [] => some n
  | n, c :: cs =>
    match digitValue c with
    | some d => if d < base then readDigits base (n * base + d) cs else none
    | none => none

/-- A number: hexadecimal with `0x` or decimal without (R53), and it must be a byte (log entry 14). -/
def readByte (cs : List Char) : Option Byte :=
  let n := match cs with
    | '0' :: 'x' :: d :: ds => readDigits 16 0 (d :: ds)
    | d :: ds => readDigits 10 0 (d :: ds)
    | [] => none
  match n with
  | some v => if v < 256 then some (BitVec.ofNat 8 v) else none
  | none => none

/-- The text without the spaces around it. -/
def trimSpaces (cs : List Char) : List Char :=
  ((cs.dropWhile (· == ' ')).reverse.dropWhile (· == ' ')).reverse

/-- The pieces between commas. -/
def splitCommas : List Char → List (List Char)
  | [] => [[]]
  | c :: cs =>
    match splitCommas cs with
    | [] => [[c]]
    | w :: ws => if c = ',' then [] :: w :: ws else (c :: w) :: ws

/-- All the bytes, or none if one piece is no byte. -/
def readBytes : List (List Char) → Option (List Byte)
  | [] => some []
  | w :: ws =>
    match readByte (trimSpaces w), readBytes ws with
    | some b, some bs => some (b :: bs)
    | _, _ => none

/-- The operands after a mnemonic. -/
def readOperands (cs : List Char) : Option (List Byte) :=
  if trimSpaces cs = [] then some [] else readBytes (splitCommas cs)

/-- The line a mnemonic and its operands stand for; none where the form is not one of R53 or R56. -/
def asmLineOf (mnemonic : List Char) (ops : List Byte) : Option AsmLine :=
  if mnemonic = "CRC16".toList then some (.crc16 ops)
  else if mnemonic = "CHECK_FRAME".toList then some (.checkFrame ops)
  else if mnemonic = "FRAME_DECODE".toList then some (.frameDecode ops)
  else if mnemonic = "FRAME_ENCODE".toList then
    match ops with
    | addr :: cmd :: args => some (.frameEncode addr cmd args)
    | _ => none
  else
    match ops with
    | [] => if mnemonic = "CRC_INIT".toList then some .crcInit
      else if mnemonic = "CRC_FINAL".toList then some .crcFinal else none
    | [d] => if mnemonic = "CRC_UPDATE".toList then some (.crcUpdate d)
      else if mnemonic = ".byte".toList then some (.raw d) else none
    | _ => none

/-- The request bytes of one line of text: none where the assembler refuses it, no byte for a blank or comment line. -/
def assembleText (line : List Char) : Option (List Byte) :=
  let code := trimSpaces (line.takeWhile (· != ';'))
  if code = [] then some []
  else
    match readOperands (code.dropWhile (· != ' ')) with
    | some ops => (asmLineOf (code.takeWhile (· != ' ')) ops).bind AsmLine.bytes
    | none => none

end Sys2Proof.Machine
end

