-- ==== Sys2Proof/Safety.lean ====
section
/-! DEFINITION. What claims about the frame engine are said in: the state invariant, waiting and the end of a run, request
sequences, and what a stream has hashed. -/

namespace Sys2Proof.Machine

/-! ### The invariant -/

/-- The shape of a response, by its status (R48): an OK response carries nothing, a CRC, an outbound frame or a checked
inbound frame, and a CRC_FAIL response a payload with the two CRCs that disagree (R80). -/
def Response.Shaped (r : Response) : Prop :=
  match r.status with
  | .ok =>
    r.data = [] ∨ r.data.length = 2 ∨ (∃ p, p.length = 8 ∧ r.data = p ++ le16 (crc16 p)) ∨
      ∃ p, p.length = 6 ∧ r.data = p ++ le16 (crc16 p) ++ le16 (crc16 p)
  | .crcFail => ∃ p rx, p.length = 6 ∧ crc16 p ≠ rx ∧ r.data = p ++ le16 rx ++ le16 (crc16 p)
  | .illegalOp => r.data = []
  | .reservedField => r.data = []

/-- `acc_valid` is set only where it exists (R21), and every response ever returned has its shape (R48). -/
def State.Inv (s : State) : Prop :=
  (s.accValid = true → s.cfg.accResetKnown = false) ∧ ∀ r ∈ s.responses, Response.Shaped r

/-! ### Runs -/

/-- n steps from a state, ending at the first fault or refusal: the host's `Core.run` of this machine. -/
def runSteps : Nat → State → Host.Outcome State Fault Refusal
  | 0, s => .next s
  | n + 1, s =>
    match step s with
    | .next t => runSteps n t
    | .fault f => .fault f
    | .refused r => .refused r

/-- The block holds what it has and has no step of its own: no whole request and no reset is at hand (R106). -/
def State.Waiting (s : State) : Prop := fetch s.input = .hold

/-- The end of a run (R108): nothing of what the host sent is left. Where the host sent no reset, every request is then
answered and none is partly sent. That a run in which a reset cut a request off, so that it is never answered, counts as
ended too is the model's choice: R108 leaves such a run open (log entry 17). -/
def State.RunEnded (s : State) : Prop := s.input = []

/-- The states a block with the given parameters can be in, whatever the host does: it sends bytes and resets at any time
(R93), and the block steps. -/
inductive Reachable (cfg : Config) : State → Prop where
  | reset : Reachable cfg (State.resetWith cfg)
  | host {s : State} (es : List HostEvent) : Reachable cfg s → Reachable cfg (s.setInput (s.input ++ es))
  | step {s t : State} : Reachable cfg s → Machine.step s = .next t → Reachable cfg t

/-! ### Request sequences -/

/-- A whole request as the host sends it: a legal one, or an op byte that is answered with an error and its operand
bytes. -/
inductive Request where
  | instr (i : Instr)
  | erroneous (op : Byte) (opnd : List Byte)
deriving DecidableEq, Repr

/-- The op byte is answered RESERVED_FIELD (R44). -/
def reservedOp (op : Byte) : Bool := legalOp (opField op) && opField op != 4 && cntField op != 0

/-- The bytes of a request (R39). -/
def Request.bytes : Request → List Byte
  | .instr i => encode i
  | .erroneous op opnd => op :: opnd

/-- The request is what its constructor says, with every operand byte present (R39, R43). -/
def Request.Whole : Request → Prop
  | .instr i => i.wellFormed = true
  | .erroneous op opnd =>
    (legalOp (opField op) = false ∨ reservedOp op = true) ∧ opnd.length = operandLen (opField op)

/-- The host's events for a sequence of requests. -/
def sent (rs : List Request) : List HostEvent := (rs.flatMap Request.bytes).map HostEvent.byte

/-- The data bytes a sequence of requests hashes: the operand of each CRC_UPDATE, in order. -/
def hashed : List Request → List Byte
  | .instr (.crcUpdate d) :: rs => d :: hashed rs
  | _ :: rs => hashed rs
  | [] => []

/-- The CRC_UPDATE requests of a byte sequence (R64). -/
def updates (bs : List Byte) : List Request := bs.map fun b => .instr (.crcUpdate b)

/-- A response with status OK and no data: what CRC_INIT and CRC_UPDATE return (R48). -/
def okEmpty : Response := ⟨.ok, []⟩

/-! ### Frames -/

/-- The eight bytes of an inbound frame, byte 0 first. -/
def frameBytes (f : InFrame) : List Byte := [f.b0, f.b1, f.b2, f.b3, f.b4, f.b5, f.b6, f.b7]

/-- The inbound frame whose byte k is bits 8k+7 to 8k of w: the 64 bits of a frame, numbered. -/
def frameOfBits (w : BitVec 64) : InFrame where
  b0 := w.extractLsb' 0 8
  b1 := w.extractLsb' 8 8
  b2 := w.extractLsb' 16 8
  b3 := w.extractLsb' 24 8
  b4 := w.extractLsb' 32 8
  b5 := w.extractLsb' 40 8
  b6 := w.extractLsb' 48 8
  b7 := w.extractLsb' 56 8

end Sys2Proof.Machine
end

