-- ==== Sys2Proof/Certificates/Slice0/Obligations.lean ====
section
/-! DEFINITION. What is to be proved of the frame engine, from the numbered rules of the spec. Where the spec lets a
parameter decide, the statement holds for both of its values: a state carries the setting it was built with. In
every statement about steps, what the host sends is the list State.input (log entry 5), what the block returns is added to
the list State.responses (log entry 6), and the setting of the parameters stands in State.cfg (log entry 1): the model's form
of the spec's requests, responses and parameters. -/

open Sys2Proof Sys2Proof.Machine

/-! ### Reset and the parameters -/

/-- 70_reset_and_hazards.md section 1 and the defaults of 00_scope.md R4: what reset leaves. The value of ACC under
`ACC_RESET_KNOWN = false` is free, and the statement says only that it cannot be read. Two values are the model's choice and
no rule's: that acc_valid is false under `ACC_RESET_KNOWN = true`, where R96 gives no such bit (log entry 4), and that the
list of responses of a block's first state is empty (log entry 6; a reset event keeps that list). -/
def Obligations.ResetStateValues : Prop :=
  State.reset = State.resetWith ⟨true, true⟩ ∧
  ∀ c : Config,
    (State.resetWith c).cfg = c ∧ (State.resetWith c).accValid = false ∧ (State.resetWith c).input = [] ∧
    (State.resetWith c).responses = [] ∧
    (c.accResetKnown = true → (State.resetWith c).acc = 0xFFFF#16 ∧ (State.resetWith c).accReadable = true) ∧
    (c.accResetKnown = false → (State.resetWith c).accReadable = false)

/-- R20: under `ACC_RESET_KNOWN = true` reset leaves the value CRC_INIT writes, so a stream begun right after reset without a
CRC_INIT computes the same CRC as one begun with it. -/
def Obligations.StreamAfterResetNeedsNoInit : Prop :=
  ∀ (e : Bool) (bs : List Byte),
    (State.resetWith ⟨true, e⟩).acc = 0xFFFF#16 ∧
    (∃ v, exec .crcInit (State.resetWith ⟨true, e⟩) = .next v ∧ v.acc = (State.resetWith ⟨true, e⟩).acc) ∧
    ∃ t u,
      runSteps (bs.length + 1)
        ((State.resetWith ⟨true, e⟩).setInput (sent (updates bs ++ [.instr .crcFinal]))) = .next t ∧
      runSteps (bs.length + 2)
        ((State.resetWith ⟨true, e⟩).setInput (sent (.instr .crcInit :: updates bs ++ [.instr .crcFinal]))) = .next u ∧
      t.responses.getLast? = some ⟨.ok, le16 (crc16 bs)⟩ ∧ u.responses.getLast? = some ⟨.ok, le16 (crc16 bs)⟩ ∧
      t.acc = u.acc

/-- R21: `acc_valid` is cleared by reset and set by CRC_INIT; while it is 0, CRC_UPDATE and CRC_FINAL are the model fault
`UnwrittenAcc`, which ends every run that reaches it. -/
def Obligations.UnwrittenAccIsAModelFault : Prop :=
  ∀ c : Config, c.accResetKnown = false →
    (State.resetWith c).accValid = false ∧
    (∀ (s : State) (rest : List HostEvent), s.cfg = c → (s.applyReset rest).accValid = false) ∧
    (∀ s : State, s.cfg = c → ∃ t, exec .crcInit s = .next t ∧ t.accValid = true) ∧
    (∀ s : State, s.cfg = c → s.accValid = false →
      exec .crcFinal s = .fault .unwrittenAcc ∧ ∀ d, exec (.crcUpdate d) s = .fault .unwrittenAcc) ∧
    (∀ (s : State) (n : Nat), step s = .fault .unwrittenAcc → runSteps (n + 1) s = .fault .unwrittenAcc)

/-- 70_reset_and_hazards.md section 1 (R97): after reset the block is ready at once, and no initialization request is needed before FRAME_ENCODE or
FRAME_DECODE: the bytes the host sends are read as R46 says, from an op byte on, and a frame request is performed. That the one response is the whole list of responses rests on the
list of the first state being empty, the model's choice (log entry 6). -/
def Obligations.ReadyAtOnceAfterReset : Prop :=
  ∀ (c : Config) (bs : List Byte),
    (∀ i rest, decode bs = .request i rest →
      step ((State.resetWith c).setInput (bs.map HostEvent.byte)) =
        exec i ((State.resetWith c).setInput (rest.map HostEvent.byte))) ∧
    (∀ why rest, decode bs = .rejected why rest →
      step ((State.resetWith c).setInput (bs.map HostEvent.byte)) =
        .next (((State.resetWith c).setInput (rest.map HostEvent.byte)).respond (rejectStatus why) [])) ∧
    (∀ cnt addr cmd a rest, decode bs = .request (.frameEncode cnt addr cmd a) rest →
      ∃ t, step ((State.resetWith c).setInput (bs.map HostEvent.byte)) = .next t ∧ t.responses.length = 1) ∧
    (∀ f rest, decode bs = .request (.frameDecode f) rest →
      ∃ t, step ((State.resetWith c).setInput (bs.map HostEvent.byte)) = .next t ∧ t.responses.length = 1)

/-- R98: a reset during a request aborts it, whether its bytes have all arrived or not: no response is returned, and its
bytes are discarded; with no request in progress the reset acts just so; a request that is whole before the reset, a legal
or an erroneous one, is answered first and has taken full effect; no request resets the block, and CRC_INIT resets only ACC.
That a reset is an event among the bytes the host sends, and that the reset of a whole request in progress
is the event `resetInFlight`, is the model's (log entry 8), and so is the value of acc_valid under
`ACC_RESET_KNOWN = true` (log entry 4). -/
def Obligations.ResetAbortsRequestInProgress : Prop :=
  (∀ (s : State) (rest : List HostEvent),
    (s.applyReset rest).responses = s.responses ∧ (s.applyReset rest).input = rest ∧
    (s.applyReset rest).cfg = s.cfg ∧ (s.applyReset rest).accValid = false ∧
    (s.cfg.accResetKnown = true → (s.applyReset rest).acc = 0xFFFF#16)) ∧
  (∀ (s : State) (op : Byte) (opnd : List Byte) (e : HostEvent) (rest : List HostEvent),
    opnd.length < operandLen (opField op) → e = .reset ∨ e = .resetInFlight →
    s.input = (op :: opnd).map HostEvent.byte ++ e :: rest → step s = .next (s.applyReset rest)) ∧
  (∀ (s : State) (e : HostEvent) (rest : List HostEvent), e = .reset ∨ e = .resetInFlight →
    s.input = e :: rest → step s = .next (s.applyReset rest)) ∧
  (∀ (s : State) (r : Request) (rest : List HostEvent), r.Whole →
    s.input = r.bytes.map HostEvent.byte ++ HostEvent.resetInFlight :: rest → step s = .next (s.applyReset rest)) ∧
  (∀ (s : State) (i : Instr) (rest : List HostEvent), i.wellFormed = true →
    s.input = (encode i).map HostEvent.byte ++ HostEvent.reset :: rest →
    step s = exec i (s.setInput (HostEvent.reset :: rest))) ∧
  (∀ (s : State) (op : Byte) (opnd : List Byte) (rest : List HostEvent), (Request.erroneous op opnd).Whole →
    s.input = (op :: opnd).map HostEvent.byte ++ HostEvent.reset :: rest →
    step s = .next { s with
      input := HostEvent.reset :: rest
      responses := s.responses ++ [⟨if legalOp (opField op) = true then .reservedField else .illegalOp, []⟩] }) ∧
  (∀ s t : State, exec .crcInit s = .next t →
    t = { s with acc := t.acc, accValid := t.accValid, responses := t.responses }) ∧
  ∀ (i : Instr) (s t : State), exec i s = .next t → t.resets = s.resets

/-- R100 (and R98): nothing of a request that a reset cut off shows afterwards, be it partly sent or whole, and nothing of a
reset with no request before it: the next response belongs to the next request sent after the reset. That a reset is an event among the bytes the host sends is the model's (log entry 8). -/
def Obligations.NextResponseAfterResetIsTheNextRequests : Prop :=
  (∀ (s : State) (op : Byte) (opnd : List Byte) (e : HostEvent) (i : Instr),
    opnd.length < operandLen (opField op) → e = .reset ∨ e = .resetInFlight → i.wellFormed = true →
    s.input = (op :: opnd).map HostEvent.byte ++ e :: (encode i).map HostEvent.byte →
    runSteps 2 s = exec i (s.applyReset [])) ∧
  (∀ (s : State) (r : Request) (i : Instr), r.Whole → i.wellFormed = true →
    s.input = r.bytes.map HostEvent.byte ++ HostEvent.resetInFlight :: (encode i).map HostEvent.byte →
    runSteps 2 s = exec i (s.applyReset [])) ∧
  ∀ (s : State) (e : HostEvent) (i : Instr), e = .reset ∨ e = .resetInFlight → i.wellFormed = true →
    s.input = e :: (encode i).map HostEvent.byte → runSteps 2 s = exec i (s.applyReset [])

/-! ### The CRC function -/

/-- R57: `crc16` starts from 0xFFFF, hashes the bytes in index order and complements at the end. The two clauses determine
it on every sequence. -/
def Obligations.Crc16HashesInOrder : Prop :=
  crc16 [] = ~~~(0xFFFF#16) ∧
  ∀ (s : List Byte) (b : Byte), crc16 (s ++ [b]) = ~~~(crcStepByte (~~~(crc16 s)) b)

/-- R58: a byte step is eight bit steps, least significant bit first. -/
def Obligations.ByteStepIsLsbFirst : Prop :=
  ∀ (a : Half) (b : Byte),
    crcStepByte a b =
      crcStepBit (crcStepBit (crcStepBit (crcStepBit (crcStepBit (crcStepBit (crcStepBit (crcStepBit a (b.getLsbD 0))
        (b.getLsbD 1)) (b.getLsbD 2)) (b.getLsbD 3)) (b.getLsbD 4)) (b.getLsbD 5)) (b.getLsbD 6)) (b.getLsbD 7)

/-- R59, bit by bit: the shift is logical, and the XOR branch sets bit 15 and toggles bits 10 and 3. -/
def Obligations.BitStepBits : Prop :=
  ∀ (a : Half) (d : Bool),
    ((a.getLsbD 0 ^^ d) = true → crcStepBit a d = (a >>> 1) ^^^ 0x8408#16) ∧
    ((a.getLsbD 0 ^^ d) = false → crcStepBit a d = a >>> 1) ∧
    (a >>> 1).getLsbD 15 = false ∧
    (crcStepBit a d).getLsbD 15 = (a.getLsbD 0 ^^ d) ∧
    ∀ i, (0x8408#16).getLsbD i = decide (i = 15 ∨ i = 10 ∨ i = 3)

/-- R60: the byte-wide form agrees with the byte step for every accumulator and every byte. -/
def Obligations.ByteWideFormAgrees : Prop :=
  ∀ (a : Half) (b : Byte),
    crcStepByte a b =
      (List.range 8).foldl
        (fun (x : Half) _ => if x.getLsbD 0 = true then (x >>> 1) ^^^ 0x8408#16 else x >>> 1) (a ^^^ b.setWidth 16)

/-- 40_crc.md section 2 (R62, corner cases): for a fixed ACC distinct bytes give distinct results, for a fixed byte distinct
accumulators do, and at most one byte leaves ACC unchanged. -/
def Obligations.ByteStepIsInjective : Prop :=
  (∀ (a : Half) (b b' : Byte), crcStepByte a b = crcStepByte a b' → b = b') ∧
  (∀ (a a' : Half) (b : Byte), crcStepByte a b = crcStepByte a' b → a = a') ∧
  ∀ (a : Half) (b b' : Byte), crcStepByte a b = a → crcStepByte a b' = a → b = b'

/-- 95_test_vectors.md section 1.1: the three CRC vectors of the source. -/
def Obligations.SourceCrcVectors : Prop :=
  (crc16 [32#8, 32#8, 32#8, 32#8, 32#8, 32#8, 32#8, 32#8]).toNat = 15784 ∧
  (crc16 [2#8, 56#8, 32#8, 32#8, 32#8, 32#8, 32#8, 32#8]).toNat = 60178 ∧
  (crc16 [2#8, 56#8, 1#8, 2#8, 3#8, 4#8, 5#8, 6#8]).toNat = 53051

/-- R8: the little-endian packing and its inverse. -/
def Obligations.LittleEndianPacking : Prop :=
  (∀ a : Half, le16 a = [a.extractLsb' 0 8, a.extractLsb' 8 8]) ∧
  (∀ x y : Byte, fromLe16 x y = x.setWidth 16 ||| (y.setWidth 16 <<< 8)) ∧
  (∀ x y : Byte, le16 (fromLe16 x y) = [x, y]) ∧
  ∀ a : Half, fromLe16 (lo8 a) (hi8 a) = a

/-- 40_crc.md section 1 and 95_test_vectors.md section 2.3: no change of a single byte of a sequence goes undetected, of any
sequence and at any place. -/
def Obligations.SingleByteChangeChangesCrc : Prop :=
  ∀ (p : List Byte) (i : Nat) (b : Byte), i < p.length → p[i]? ≠ some b → crc16 (p.set i b) ≠ crc16 p

/-- 95_test_vectors.md section 2.3: no two-bit error within the six payload bytes goes undetected. Bit k of the payload is
bit k mod 8 of byte k / 8. -/
def Obligations.TwoBitErrorsChangeCrc : Prop :=
  ∀ (w : BitVec 64) (j k : Nat), j < k → k < 48 →
    crc16 (inboundPayload (frameOfBits (w ^^^ (1#64 <<< j) ^^^ (1#64 <<< k)))) ≠ crc16 (inboundPayload (frameOfBits w))

/-! ### The streaming requests -/

/-- R61: CRC_INIT. Under `ACC_RESET_KNOWN = true`, where R61 writes no acc_valid, the model's field is left as it was (log
entry 4). -/
def Obligations.CrcInitRule : Prop :=
  (∀ s : State, exec .crcInit s =
    .next { s with
      acc := 0xFFFF#16, accValid := s.accValid || !s.cfg.accResetKnown, responses := s.responses ++ [⟨.ok, []⟩] }) ∧
  encode .crcInit = [0x01#8] ∧ (Response.mk .ok []).bytes = [0x00#8] ∧
  (∀ (s : State) (cnt : Nat) (bs : List Byte), 1 ≤ cnt → cnt ≤ 15 →
    s.input = (BitVec.ofNat 8 (16 * cnt + 1) :: bs).map HostEvent.byte →
    step s = .next { s with input := bs.map HostEvent.byte, responses := s.responses ++ [⟨.reservedField, []⟩] }) ∧
  ∀ s t u : State, exec .crcInit s = .next t → exec .crcInit t = .next u → u.acc = t.acc ∧ u.accValid = t.accValid

/-- 40_crc.md section 2 (R62): CRC_UPDATE hashes its byte wherever ACC holds a value, changes nothing else and returns an
empty OK; with CNT ≠ 0 its byte is consumed and ACC is unchanged; D = 0x00 still changes ACC. -/
def Obligations.CrcUpdateRule : Prop :=
  (∀ (d : Byte) (s : State), s.cfg.accResetKnown = true ∨ s.accValid = true →
    exec (.crcUpdate d) s =
      .next { s with acc := crcStepByte s.acc d, responses := s.responses ++ [⟨.ok, []⟩] }) ∧
  (∀ d, encode (.crcUpdate d) = [0x02#8, d]) ∧
  (∀ (s : State) (cnt : Nat) (d : Byte) (bs : List Byte), 1 ≤ cnt → cnt ≤ 15 →
    s.input = (BitVec.ofNat 8 (16 * cnt + 2) :: d :: bs).map HostEvent.byte →
    step s = .next { s with input := bs.map HostEvent.byte, responses := s.responses ++ [⟨.reservedField, []⟩] }) ∧
  crcStepByte 0xFFFF#16 0x00#8 = 0x0F87#16 ∧ crcStepByte 0xFFFF#16 0x20#8 = 0x2E85#16

/-- R63: CRC_FINAL. -/
def Obligations.CrcFinalRule : Prop :=
  (∀ s : State, s.cfg.accResetKnown = true ∨ s.accValid = true →
    exec .crcFinal s =
      .next { s with
        responses := s.responses ++ [⟨.ok, [(~~~s.acc).extractLsb' 0 8, (~~~s.acc).extractLsb' 8 8]⟩] }) ∧
  (∀ s : State, s.cfg.accResetKnown = false → s.accValid = false → exec .crcFinal s = .fault .unwrittenAcc) ∧
  encode .crcFinal = [0x03#8] ∧
  (∀ (s : State) (cnt : Nat) (bs : List Byte), 1 ≤ cnt → cnt ≤ 15 →
    s.input = (BitVec.ofNat 8 (16 * cnt + 3) :: bs).map HostEvent.byte →
    step s = .next { s with input := bs.map HostEvent.byte, responses := s.responses ++ [⟨.reservedField, []⟩] }) ∧
  (∀ s t u : State, exec .crcFinal s = .next t → exec .crcFinal t = .next u →
    u.responses.getLast? = t.responses.getLast?) ∧
  (∀ s t u : State, exec .crcInit s = .next t → exec .crcFinal t = .next u →
    u.responses.getLast? = some ⟨.ok, [0x00#8, 0x00#8]⟩) ∧
  ∀ s : State, s.input = sent (.instr .crcInit :: updates (List.replicate 8 0x20#8) ++ [.instr .crcFinal]) →
    ∃ t, runSteps 10 s = .next t ∧ t.acc = 0xC257#16 ∧
      t.responses.getLast?.map Response.bytes = some [0x00#8, 0xA8#8, 0x3D#8]

/-- R17: who writes ACC and who reads it. No request but CRC_INIT and CRC_UPDATE writes it; no response but CRC_FINAL's
depends on it, and that one carries its complement; the frame requests and the requests answered with an error do neither. -/
def Obligations.AccAccess : Prop :=
  (∀ (i : Instr) (s t : State), exec i s = .next t →
    t.acc = match i with
      | .crcInit => 0xFFFF#16
      | .crcUpdate d => crcStepByte s.acc d
      | .crcFinal => s.acc
      | .frameEncode _ _ _ _ => s.acc
      | .frameDecode _ => s.acc) ∧
  (∀ (i : Instr) (s t : State) (a : Half), i ≠ .crcFinal → exec i s = .next t →
    ∃ u, exec i (s.setAcc a) = .next u ∧ u.responses = t.responses ∧ u.accValid = t.accValid ∧
      (i = .crcInit → u.acc = t.acc) ∧
      ((∀ d, i ≠ .crcUpdate d) → i ≠ .crcInit → u.acc = a)) ∧
  (∀ s t : State, exec .crcFinal s = .next t → t.responses = s.responses ++ [⟨.ok, le16 (~~~s.acc)⟩]) ∧
  (∀ (s : State) (why : Reject) (rest : List HostEvent), fetch s.input = .rejected why rest →
    ∃ t, step s = .next t ∧ t.acc = s.acc ∧
      ∀ a, ∃ u, step (s.setAcc a) = .next u ∧ u.acc = a ∧ u.responses = t.responses)

/-- 10_state.md section 5 (R18) with R24: what a performed request can change at all is ACC, acc_valid and the list of
responses, to which it adds exactly one. -/
def Obligations.PerformedRequestFrame : Prop :=
  ∀ (i : Instr) (s t : State), exec i s = .next t →
    (∃ r : Response, t.responses = s.responses ++ [r]) ∧ t.cfg = s.cfg ∧ t.input = s.input ∧ t.resets = s.resets ∧
    (i ≠ .crcInit → t.accValid = s.accValid)

/-- R64, R104: the stream law. Between CRC_INIT and CRC_FINAL any requests may stand that are not CRC_INIT, erroneous ones
too: the final response is the CRC of the bytes the CRC_UPDATEs among them carried. -/
def Obligations.StreamLaw : Prop :=
  ∀ (s : State) (rs : List Request), (∀ r ∈ rs, r.Whole ∧ r ≠ .instr .crcInit) →
    s.input = sent (.instr .crcInit :: rs ++ [.instr .crcFinal]) →
    ∃ t, runSteps (rs.length + 2) s = .next t ∧ t.input = [] ∧ t.acc = ~~~(crc16 (hashed rs)) ∧
      t.responses.length = s.responses.length + rs.length + 2 ∧
      t.responses.getLast? = some ⟨.ok, le16 (crc16 (hashed rs))⟩

/-- R65: the CRC of no bytes. -/
def Obligations.EmptyStream : Prop :=
  crc16 [] = 0x0000#16 ∧
  ∀ s : State, s.input = sent [.instr .crcInit, .instr .crcFinal] →
    ∃ t, runSteps 2 s = .next t ∧ t.responses.getLast?.map Response.bytes = some [0x00#8, 0x00#8, 0x00#8]

/-- R66, R103: CRC_FINAL does not end a stream. After p it returns the CRC of p, and a message q hashed next without a
CRC_INIT gives the CRC of p and q concatenated. The example is R66's. -/
def Obligations.PrefixLaw : Prop :=
  (∀ (s : State) (p q : List Byte),
    s.input = sent (.instr .crcInit :: updates p ++ .instr .crcFinal :: updates q ++ [.instr .crcFinal]) →
    ∃ t, runSteps (p.length + q.length + 3) s = .next t ∧ t.acc = ~~~(crc16 (p ++ q)) ∧
      t.responses =
        s.responses ++ okEmpty :: List.replicate p.length okEmpty ++ ⟨.ok, le16 (crc16 p)⟩ ::
          List.replicate q.length okEmpty ++ [⟨.ok, le16 (crc16 (p ++ q))⟩]) ∧
  ~~~(crc16 [0x02#8, 0x38#8]) = 0x7EC3#16 ∧
  (Response.mk .ok (le16 (crc16 [0x02#8, 0x38#8]))).bytes = [0x00#8, 0x3C#8, 0x81#8] ∧
  (Response.mk .ok (le16 (crc16 ([0x02#8, 0x38#8] ++ List.replicate 6 0x20#8)))).bytes = [0x00#8, 0x12#8, 0xEB#8]

/-- 70_reset_and_hazards.md section 3 (R101): the accumulator is shared. A stream B begun inside a stream A takes A's bytes
so far away: A's CRC_FINAL returns the CRC of B's bytes and A's later ones. -/
def Obligations.InterleavedStreamsShareAcc : Prop :=
  ∀ (s : State) (p q r : List Byte),
    s.input = sent (.instr .crcInit :: updates p ++ .instr .crcInit :: updates q ++ .instr .crcFinal ::
      updates r ++ [.instr .crcFinal]) →
    ∃ t, runSteps (p.length + q.length + r.length + 4) s = .next t ∧
      t.responses.getLast? = some ⟨.ok, le16 (crc16 (q ++ r))⟩

/-- R67: the only model fault is `UnwrittenAcc`, at a CRC_UPDATE or CRC_FINAL under `ACC_RESET_KNOWN = false` before a
CRC_INIT; a CRC_* request is otherwise answered OK. Nothing is refused: that a block which waits answers the same state, and
that a reset is an event it takes a step for, is the model's choice (log entries 7, 8). -/
def Obligations.OnlyFaultIsUnwrittenAcc : Prop :=
  (∀ (s : State) (f : Fault), step s = .fault f ↔
    f = .unwrittenAcc ∧ s.cfg.accResetKnown = false ∧ s.accValid = false ∧
      ∃ i rest, fetch s.input = .request i rest ∧ (i = .crcFinal ∨ ∃ d, i = .crcUpdate d)) ∧
  (∀ (s : State) (r : Refusal), step s ≠ .refused r) ∧
  (∀ (i : Instr) (s t : State), (i = .crcInit ∨ i = .crcFinal ∨ ∃ d, i = .crcUpdate d) → exec i s = .next t →
    ∃ data, t.responses = s.responses ++ [⟨.ok, data⟩]) ∧
  ∀ (op : Byte) (bs rest : List Byte) (why : Reject), op.toNat % 16 = 1 ∨ op.toNat % 16 = 2 ∨ op.toNat % 16 = 3 →
    decode (op :: bs) = .rejected why rest → why = .reservedField ∧ op.toNat / 16 ≠ 0

/-- 10_state.md section 6 (R21), as secrecy: while ACC holds no value, nothing the block does shows what its bits are, and
the first CRC_INIT makes them what they are in every such block. The steps that wait and the reset events among those
covered are the model's (log entries 7, 8). -/
def Obligations.UnwrittenAccIsInvisible : Prop :=
  ∀ (s : State) (a : Half), s.accReadable = false →
    (∀ f, step s = .fault f → step (s.setAcc a) = .fault f) ∧
    ∀ t, step s = .next t →
      ∃ u, step (s.setAcc a) = .next u ∧ u.responses = t.responses ∧ u.input = t.input ∧
        u.accReadable = t.accReadable ∧ (t.accReadable = true → u = t)

/-- 70_reset_and_hazards.md section 2 (R99): a host that issues CRC_INIT first sees the same responses and ends in the same
ACC under both values of `ACC_RESET_KNOWN`, and under neither does the block fault. -/
def Obligations.InitFirstIsPortable : Prop :=
  ∀ (e : Bool) (rs : List Request), (∀ r ∈ rs, r.Whole) →
    ∃ t u,
      runSteps (rs.length + 1) ((State.resetWith ⟨true, e⟩).setInput (sent (.instr .crcInit :: rs))) = .next t ∧
      runSteps (rs.length + 1) ((State.resetWith ⟨false, e⟩).setInput (sent (.instr .crcInit :: rs))) = .next u ∧
      t.input = [] ∧ u.input = [] ∧ t.responses = u.responses ∧ t.acc = u.acc

/-! ### The frame codec -/

/-- R71, R72, R75, R76: FRAME_ENCODE. It is performed in every state and answered OK; the payload is ADDR, CMD and the six
slots; the CRC of the payload follows, low byte first; nothing but the list of responses changes. -/
def Obligations.FrameEncodeRule : Prop :=
  (∀ (cnt : Nat) (addr cmd a0 a1 a2 a3 a4 a5 : Byte) (s : State), cnt ≤ 15 →
    let n := min cnt 6
    let slot : Nat → Byte → Byte := fun k arg =>
      if k < n then arg
      else if k = n ∧ n > 0 then 0x00#8
      else if k = n ∧ n = 0 ∧ s.cfg.emptyArgsTerminator = true then 0x00#8
      else 0x20#8
    let p := [addr, cmd, slot 0 a0, slot 1 a1, slot 2 a2, slot 3 a3, slot 4 a4, slot 5 a5]
    exec (.frameEncode cnt addr cmd ⟨a0, a1, a2, a3, a4, a5⟩) s =
      .next { s with
        responses := s.responses ++
          [⟨.ok, p ++ [(crc16 p).extractLsb' 0 8, (crc16 p).extractLsb' 8 8]⟩] }) ∧
  (∀ (cnt : Nat) (addr cmd a0 a1 a2 a3 a4 a5 : Byte), cnt ≤ 15 →
    encode (.frameEncode cnt addr cmd ⟨a0, a1, a2, a3, a4, a5⟩) =
      [BitVec.ofNat 8 (16 * cnt + 4), addr, cmd, a0, a1, a2, a3, a4, a5]) ∧
  ∀ s : State, ∃ t, exec (.frameEncode 6 2#8 56#8 ⟨1#8, 2#8, 3#8, 4#8, 5#8, 6#8⟩) s = .next t ∧
    t.responses.getLast?.map Response.bytes =
      some [0x00#8, 0x02#8, 0x38#8, 0x01#8, 0x02#8, 0x03#8, 0x04#8, 0x05#8, 0x06#8, 0x3B#8, 0xCF#8]

/-- R74: the effective count is min(CNT, 6), and argument bytes of slots from N on change nothing in the response. -/
def Obligations.ArgumentsBeyondTheCountAreIgnored : Prop :=
  (∀ (cnt : Nat) (addr cmd : Byte) (a : Args) (s : State), 6 ≤ cnt → cnt ≤ 15 →
    exec (.frameEncode cnt addr cmd a) s = exec (.frameEncode 6 addr cmd a) s) ∧
  ∀ (cnt : Nat) (addr cmd : Byte) (a b : Args) (s : State),
    (0 < min cnt 6 → a.a0 = b.a0) → (1 < min cnt 6 → a.a1 = b.a1) → (2 < min cnt 6 → a.a2 = b.a2) →
    (3 < min cnt 6 → a.a3 = b.a3) → (4 < min cnt 6 → a.a4 = b.a4) → (5 < min cnt 6 → a.a5 = b.a5) →
    exec (.frameEncode cnt addr cmd a) s = exec (.frameEncode cnt addr cmd b) s

/-- 41_frame.md section 2 (R77): FRAME_ENCODE is not injective. With k < 6 arguments it gives the frame of six arguments
that go on with 0x00 and then 0x20 bytes; with none, under `EMPTY_ARGS_TERMINATOR = false`, that of six 0x20 bytes. -/
def Obligations.ShortFrameEqualsPaddedFrame : Prop :=
  (∀ (k : Nat) (addr cmd : Byte) (a b : Args) (s : State), k < 6 → 0 < k ∨ s.cfg.emptyArgsTerminator = true →
    b.a0 = (if 0 < k then a.a0 else 0x00#8) →
    b.a1 = (if 1 < k then a.a1 else if 1 = k then 0x00#8 else 0x20#8) →
    b.a2 = (if 2 < k then a.a2 else if 2 = k then 0x00#8 else 0x20#8) →
    b.a3 = (if 3 < k then a.a3 else if 3 = k then 0x00#8 else 0x20#8) →
    b.a4 = (if 4 < k then a.a4 else if 4 = k then 0x00#8 else 0x20#8) →
    b.a5 = (if 5 < k then a.a5 else if 5 = k then 0x00#8 else 0x20#8) →
    exec (.frameEncode k addr cmd a) s = exec (.frameEncode 6 addr cmd b) s) ∧
  ∀ (addr cmd : Byte) (a : Args) (s : State), s.cfg.emptyArgsTerminator = false →
    exec (.frameEncode 0 addr cmd a) s = exec (.frameEncode 6 addr cmd ⟨0x20#8, 0x20#8, 0x20#8, 0x20#8, 0x20#8, 0x20#8⟩) s

/-- R79, R80: FRAME_DECODE. It is performed in every state; the status is OK exactly when the recomputed CRC is the
transmitted one; payload and both CRCs are returned under either status; nothing but the list of responses changes. -/
def Obligations.FrameDecodeRule : Prop :=
  ∀ (b0 b1 b2 b3 b4 b5 b6 b7 : Byte) (s : State),
    let crcRx : Half := b6.setWidth 16 ||| (b7.setWidth 16 <<< 8)
    let crcCalc : Half := crc16 [b0, b1, b2, b3, b4, b5]
    exec (.frameDecode ⟨b0, b1, b2, b3, b4, b5, b6, b7⟩) s =
      .next { s with
        responses := s.responses ++
          [⟨if crcCalc = crcRx then .ok else .crcFail,
            [b0, b1, b2, b3, b4, b5] ++ [crcRx.extractLsb' 0 8, crcRx.extractLsb' 8 8] ++
              [crcCalc.extractLsb' 0 8, crcCalc.extractLsb' 8 8]⟩] }

/-- 30_encoding.md section 4 (R48) and 41_frame.md section 3 (R81): the corner cases and the example of FRAME_DECODE, sent as
bytes and answered as bytes. -/
def Obligations.FrameDecodeVectors : Prop :=
  ∀ s : State,
    (s.input = [0x05#8, 0x00#8, 0x06#8, 0x02#8, 0x07#8, 0x02#8, 0x00#8, 0xD4#8, 0x4A#8].map HostEvent.byte →
      ∃ t, step s = .next t ∧ t.responses.getLast?.map Response.bytes =
        some [0x00#8, 0x00#8, 0x06#8, 0x02#8, 0x07#8, 0x02#8, 0x00#8, 0xD4#8, 0x4A#8, 0xD4#8, 0x4A#8]) ∧
    (s.input = [0x05#8, 0x00#8, 0x00#8, 0x00#8, 0x00#8, 0x00#8, 0x00#8, 0x00#8, 0x00#8].map HostEvent.byte →
      ∃ t, step s = .next t ∧ t.responses.getLast?.map Response.bytes =
        some [0x01#8, 0x00#8, 0x00#8, 0x00#8, 0x00#8, 0x00#8, 0x00#8, 0x00#8, 0x00#8, 0x8F#8, 0xF7#8])

/-- 41_frame.md section 3 (R81, round trip): every payload followed by its own CRC is answered OK with that payload. -/
def Obligations.FrameRoundTrip : Prop :=
  ∀ (b0 b1 b2 b3 b4 b5 : Byte) (s : State),
    ∃ t, exec (.frameDecode ⟨b0, b1, b2, b3, b4, b5, lo8 (crc16 [b0, b1, b2, b3, b4, b5]),
        hi8 (crc16 [b0, b1, b2, b3, b4, b5])⟩) s = .next t ∧
      ∃ data, t.responses = s.responses ++ [⟨.ok, data⟩] ∧ data.take 6 = [b0, b1, b2, b3, b4, b5]

/-- 41_frame.md section 3 (R81, single-bit flips): whatever valid frame the block receives, flipping any one of its 64 bits
makes the status CRC_FAIL. -/
def Obligations.EverySingleBitFlipIsDetected : Prop :=
  ∀ (w : BitVec 64) (k : Nat) (s t u : State), k < 64 →
    exec (.frameDecode (frameOfBits w)) s = .next t → (t.responses.getLast?.map Response.status) = some .ok →
    exec (.frameDecode (frameOfBits (w ^^^ (1#64 <<< k)))) s = .next u →
    (u.responses.getLast?.map Response.status) = some .crcFail

/-- 10_state.md section 7 (R23): the frame requests are pure functions of their operands (and of the parameters a block is
built with), and issuing one changes neither the next request's response nor the state that request leaves. -/
def Obligations.FrameRequestsArePure : Prop :=
  ∀ i : Instr, ((∃ cnt addr cmd a, i = .frameEncode cnt addr cmd a) ∨ ∃ f, i = .frameDecode f) →
    (∀ c : Config, ∃ r : Response, ∀ s : State, s.cfg = c →
      exec i s = .next { s with responses := s.responses ++ [r] }) ∧
    ∀ (j : Instr) (s t : State), exec i s = .next t →
      (∀ f, exec j s = .fault f → exec j t = .fault f) ∧
      ∀ v, exec j s = .next v → ∃ u, exec j t = .next u ∧ u.responses.getLast? = v.responses.getLast? ∧
        u = { v with responses := u.responses }

/-- 20_memory.md section 3 (R33): every legal request but CRC_UPDATE is idempotent: performing it again leaves the same ACC and
acc_valid and gives the same response. CRC_UPDATE is not. -/
def Obligations.IdempotentRequests : Prop :=
  (∀ (i : Instr) (s t u : State), (∀ d, i ≠ .crcUpdate d) → exec i s = .next t → exec i t = .next u →
    u.acc = t.acc ∧ u.accValid = t.accValid ∧ u.responses.getLast? = t.responses.getLast?) ∧
  ∃ (d : Byte) (s t u : State), exec (.crcUpdate d) s = .next t ∧ exec (.crcUpdate d) t = .next u ∧ u.acc ≠ t.acc

/-! ### Encodings -/

/-- 30_encoding.md sections 1 to 3 (R39, R43): every well-formed request, with every operand at every value, is read back
from its bytes, whatever bytes follow. -/
def Obligations.DecodeEncode : Prop :=
  ∀ (i : Instr) (rest : List Byte), i.wellFormed = true → decode (encode i ++ rest) = .request i rest

/-- 30_encoding.md section 3 (R46): each legal request has one byte form: what is read as a request is its encoding. -/
def Obligations.EncodeDecode : Prop :=
  ∀ (i : Instr) (bs rest : List Byte), decode bs = .request i rest → i.wellFormed = true ∧ bs = encode i ++ rest

/-- R46: decoding is total. `operand_len(OP)` bytes follow the op byte; then OP illegal, CNT reserved, or the operation, in
that order; and the 256 op byte values fall into 20 legal ones, 60 RESERVED_FIELD and 176 ILLEGAL_OP. -/
def Obligations.DecodingIsTotal : Prop :=
  (∀ (op : Byte) (bs : List Byte),
    let o := op.toNat % 16
    let cnt := op.toNat / 16
    let len := if o = 2 then 1 else if o = 4 ∨ o = 5 then 8 else 0
    (bs.length < len → decode (op :: bs) = .incomplete) ∧
    (len ≤ bs.length → o = 0 ∨ 6 ≤ o → decode (op :: bs) = .rejected .illegalOp (bs.drop len)) ∧
    (len ≤ bs.length → 1 ≤ o ∧ o ≤ 5 → o ≠ 4 ∧ cnt ≠ 0 →
      decode (op :: bs) = .rejected .reservedField (bs.drop len)) ∧
    (len ≤ bs.length → 1 ≤ o ∧ o ≤ 5 → ¬(o ≠ 4 ∧ cnt ≠ 0) →
      ∃ i, decode (op :: bs) = .request i (bs.drop len) ∧ encode i = op :: bs.take len)) ∧
  ((List.range 256).filter fun v => match decode (BitVec.ofNat 8 v :: List.replicate 8 0x00#8) with
    | .request _ _ => true | .rejected _ _ => false | .incomplete => false).length = 20 ∧
  ((List.range 256).filter fun v => match decode (BitVec.ofNat 8 v :: List.replicate 8 0x00#8) with
    | .request _ _ => false | .rejected why _ => why = .reservedField | .incomplete => false).length = 60 ∧
  ((List.range 256).filter fun v => match decode (BitVec.ofNat 8 v :: List.replicate 8 0x00#8) with
    | .request _ _ => false | .rejected why _ => why = .illegalOp | .incomplete => false).length = 176

/-- 30_encoding.md section 1 and opcode_table.json: words of the five encodings, written out byte by byte. -/
def Obligations.EncodedWords : Prop :=
  decode [0b00000001#8] = .request .crcInit [] ∧
  decode [0b00000010#8, 0x41#8] = .request (.crcUpdate 0x41#8) [] ∧
  decode [0b00000011#8] = .request .crcFinal [] ∧
  decode [0b00110100#8, 0x02#8, 0x47#8, 0x01#8, 0x02#8, 0x03#8, 0x09#8, 0x0A#8, 0x0B#8] =
    .request (.frameEncode 3 0x02#8 0x47#8 ⟨0x01#8, 0x02#8, 0x03#8, 0x09#8, 0x0A#8, 0x0B#8⟩) [] ∧
  decode [0b00000101#8, 0x00#8, 0x06#8, 0x02#8, 0x07#8, 0x02#8, 0x01#8, 0xD4#8, 0x4A#8] =
    .request (.frameDecode ⟨0x00#8, 0x06#8, 0x02#8, 0x07#8, 0x02#8, 0x01#8, 0xD4#8, 0x4A#8⟩) []

/-- 30_encoding.md section 5 (R53) with 41_frame.md R74 and R75: from the assembler's argument list to the frame. A line with
k arguments decodes to a FRAME_ENCODE with CNT = k whose frame holds the first six arguments, then the terminator, then the
padding; with more than 15 arguments, and with a FRAME_DECODE of other than 8 bytes, the assembler refuses. -/
def Obligations.AssembledFrameEncode : Prop :=
  (∀ (addr cmd : Byte) (args : List Byte), args.length ≤ 15 →
    ∃ bs a, AsmLine.bytes (.frameEncode addr cmd args) = some bs ∧
      decode bs = .request (.frameEncode args.length addr cmd a) [] ∧
      ∀ s : State, ∃ t,
        let slots := args.take 6 ++
          (if args.length < 6 then
            (if args = [] ∧ s.cfg.emptyArgsTerminator = false then 0x20#8 else 0x00#8) ::
              List.replicate (5 - args.length) 0x20#8
          else [])
        let p := addr :: cmd :: slots
        exec (.frameEncode args.length addr cmd a) s = .next t ∧ p.length = 8 ∧
          t.responses = s.responses ++ [⟨.ok, p ++ le16 (crc16 p)⟩]) ∧
  (∀ (addr cmd : Byte) (args : List Byte), 15 < args.length → AsmLine.bytes (.frameEncode addr cmd args) = none) ∧
  ∀ frame : List Byte, frame.length ≠ 8 → AsmLine.bytes (.frameDecode frame) = none

/-- R56: the pseudo-instructions. CRC16 expands into a stream whose CRC_FINAL returns the CRC of the bytes (of no bytes:
0x0000), and CHECK_FRAME into the FRAME_DECODE of its eight bytes, answered OK or CRC_FAIL. -/
def Obligations.PseudoInstructions : Prop :=
  (∀ bytes : List Byte, AsmLine.bytes (.crc16 bytes) =
    some ((encode .crcInit ++ bytes.flatMap fun b => encode (.crcUpdate b)) ++ encode .crcFinal)) ∧
  (∀ (bytes bs : List Byte) (s : State), AsmLine.bytes (.crc16 bytes) = some bs → s.input = bs.map HostEvent.byte →
    ∃ t, runSteps (bytes.length + 2) s = .next t ∧
      t.responses.getLast? = some ⟨.ok, le16 (crc16 bytes)⟩ ∧
      (bytes = [] → t.responses.getLast? = some ⟨.ok, le16 0x0000#16⟩)) ∧
  ∀ (f : InFrame) (s : State), AsmLine.bytes (.checkFrame (frameBytes f)) = some (encode (.frameDecode f)) ∧
    ∃ t, step (s.setInput ((encode (.frameDecode f)).map HostEvent.byte)) = .next t ∧
      (t.responses.getLast?.map Response.status = some .ok ∨ t.responses.getLast?.map Response.status = some .crcFail)

/-! ### Errors -/

/-- R51, with the codes of 30_encoding.md section 4 (R49): the four status bytes, and no response begins with another. -/
def Obligations.StatusCodes : Prop :=
  Status.ok.code = 0x00#8 ∧ Status.crcFail.code = 0x01#8 ∧ Status.illegalOp.code = 0x02#8 ∧
  Status.reservedField.code = 0x03#8 ∧
  ∀ r : Response, ∃ b : Byte, r.bytes = b :: r.data ∧ b.toNat < 0x04

/-- R42: a request whose OP is 0x0 or 0x6 to 0xF, with any CNT, carries no operand bytes and is answered ILLEGAL_OP (0x02)
with empty data and no state change. -/
def Obligations.IllegalOpIsAnswered : Prop :=
  (∀ (s : State) (op : Byte) (bs : List Byte), op.toNat % 16 = 0 ∨ 6 ≤ op.toNat % 16 →
    s.input = (op :: bs).map HostEvent.byte →
    step s = .next { s with input := bs.map HostEvent.byte, responses := s.responses ++ [⟨.illegalOp, []⟩] }) ∧
  (Response.mk .illegalOp []).bytes = [0x02#8]

/-- R44: CNT. FRAME_ENCODE takes every CNT, and 7 to 15 mean the first 6 arguments; any other legal OP with CNT ≠ 0 is
answered RESERVED_FIELD (0x03) with empty data and no state change, and its operand bytes are consumed. -/
def Obligations.ReservedFieldIsAnswered : Prop :=
  (∀ (cnt : Nat) (addr cmd : Byte) (a : Args) (s : State), cnt ≤ 15 →
    exec (.frameEncode cnt addr cmd a) s = exec (.frameEncode (min cnt 6) addr cmd a) s) ∧
  (∀ (s : State) (op : Byte) (opnd bs : List Byte),
    (op.toNat % 16 = 1 ∧ opnd.length = 0) ∨ (op.toNat % 16 = 2 ∧ opnd.length = 1) ∨
      (op.toNat % 16 = 3 ∧ opnd.length = 0) ∨ (op.toNat % 16 = 5 ∧ opnd.length = 8) →
    op.toNat / 16 ≠ 0 → s.input = (op :: (opnd ++ bs)).map HostEvent.byte →
    step s = .next { s with input := bs.map HostEvent.byte, responses := s.responses ++ [⟨.reservedField, []⟩] }) ∧
  (Response.mk .reservedField []).bytes = [0x03#8]

/-- R85: a request answered with an error changes neither ACC nor acc_valid and its operand bytes are consumed; a
FRAME_DECODE answered CRC_FAIL changes no state either. -/
def Obligations.ErrorsChangeNoState : Prop :=
  (∀ (s : State) (op : Byte) (opnd bs : List Byte), (Request.erroneous op opnd).Whole →
    s.input = (op :: (opnd ++ bs)).map HostEvent.byte →
    ∃ t why, step s = .next t ∧ t.acc = s.acc ∧ t.accValid = s.accValid ∧ t.input = bs.map HostEvent.byte ∧
      t.responses = s.responses ++ [⟨rejectStatus why, []⟩] ∧ t.cfg = s.cfg ∧ t.resets = s.resets) ∧
  ∀ (f : InFrame) (s t : State), exec (.frameDecode f) s = .next t →
    t.responses.getLast?.map Response.status = some .crcFail → t = { s with responses := t.responses }

/-! ### The step -/

/-- 30_encoding.md section 3 and 20_memory.md R32: where the bytes at the head of what the host sent are a well-formed
request, and no reset cuts it off, the step takes exactly those bytes in and is the request's meaning at the state that
remains. That `resetInFlight` right after a whole request is what cuts it off, and that a request whole before `reset` is
performed, is the model's choice (log entry 8). -/
def Obligations.StepRunsTheDecodedRequest : Prop :=
  (∀ (s : State) (i : Instr) (bs rest : List Byte), decode bs = .request i rest → s.input = bs.map HostEvent.byte →
    step s = exec i (s.setInput (rest.map HostEvent.byte))) ∧
  ∀ (s : State) (i : Instr) (rest : List HostEvent), i.wellFormed = true →
    s.input = (encode i).map HostEvent.byte ++ rest → rest.head? ≠ some .resetInFlight →
    step s = exec i (s.setInput rest)

/-- R106: a request whose bytes have not all arrived has not begun: no step changes anything, for ever; the missing bytes
lift the hold, and so does a reset, which discards what had arrived. That the stuck state is a step that answers the same
state is the model's (log entry 7), and the reset event too (log entry 8). -/
def Obligations.PartialRequestHolds : Prop :=
  (∀ (s : State) (op : Byte) (opnd : List Byte), opnd.length < operandLen (opField op) →
    s.input = (op :: opnd).map HostEvent.byte → ∀ n, runSteps n s = .next s) ∧
  (∀ (s : State) (i : Instr) (p q : List Byte), i.wellFormed = true → encode i = p ++ q →
    s.input = p.map HostEvent.byte → step (s.send q) = exec i (s.setInput [])) ∧
  ∀ (s : State) (op : Byte) (opnd : List Byte) (rest : List HostEvent), opnd.length < operandLen (opField op) →
    s.input = (op :: opnd).map HostEvent.byte ++ HostEvent.reset :: rest →
    ∃ t, step s = .next t ∧ t.input = rest ∧ t.responses = s.responses

/-- 20_memory.md sections 2 and 3 (R30, R32): a step takes in exactly one whole request and returns exactly one response, or
a reset acts (log entry 8), or the block waits and nothing changes (log entry 7). -/
def Obligations.OneRequestOneResponse : Prop :=
  ∀ s t : State, step s = .next t →
    (∃ (op : Byte) (opnd : List Byte) (r : Response), opnd.length = operandLen (opField op) ∧
      s.input = (op :: opnd).map HostEvent.byte ++ t.input ∧ t.responses = s.responses ++ [r] ∧ t.resets = s.resets) ∨
    (t.responses = s.responses ∧ t.resets = s.resets + 1 ∧ t.input.length < s.input.length) ∨
    (State.Waiting s ∧ t = s)

/-- 20_memory.md section 4 (R34): a request sees the effects of no later one: what the host sends after a whole request
changes nothing in what the block does with it. That what the host sends is one list, read from its head, is the model's (log
entry 5), and so are the reset events, which the statement covers too (log entry 8). -/
def Obligations.LaterBytesDoNotMatter : Prop :=
  ∀ (s : State) (bs : List Byte), ¬ State.Waiting s →
    (∀ t, step s = .next t → step (s.send bs) = .next (t.send bs)) ∧
    ∀ f, step s = .fault f → step (s.send bs) = .fault f

/-- 30_encoding.md section 4 (R48, R49): the state invariant holds at reset, with every setting of the parameters. That
acc_valid stands, and is false, under `ACC_RESET_KNOWN = true` too, and that the list of responses starts empty, is the
model's choice (log entries 4, 6). -/
def Obligations.ResetMeetsInvariant : Prop :=
  State.Inv State.reset ∧ ∀ c : Config, State.Inv (State.resetWith c)

/-- 30_encoding.md section 4 (R48), 41_frame.md (R69, R80) and 10_state.md R21: every step keeps the invariant: acc_valid is
set only where it exists, each outbound or accepted inbound frame carries the CRC of its payload, and each CRC_FAIL carries
the two CRCs that disagree. The first of these is about the model's field under `ACC_RESET_KNOWN = true` (log entry 4), and
the list of responses is the model's record (log entry 6); the steps that wait and the reset events are the model's too (log
entries 7, 8). -/
def Obligations.StepKeepsInvariant : Prop :=
  ∀ s t : State, State.Inv s → step s = .next t → State.Inv t

/-- 60_exceptions.md section 5 (R93) with 10_state.md R18 and R20: whatever the host sends and whenever it resets, the
invariant holds and the parameters are those the block was built with; under `ACC_RESET_KNOWN = true` the block never
stops. Three things here are the model's: acc_valid under `ACC_RESET_KNOWN = true` in State.Inv (log entry 4), that a block
which waits answers the same state, where R106 says stuck (log entry 7), and the reset events among what the host does in
Reachable (log entry 8). -/
def Obligations.ReachableStatesAreSafe : Prop :=
  ∀ (c : Config) (s : State), Reachable c s →
    State.Inv s ∧ s.cfg = c ∧ (c.accResetKnown = true → ∃ t, step s = .next t)
end

