-- ==== Sys2Proof/Laws/Decode.lean ====
section
/-! SUPPORT. What the op byte's fields, the decoder's parts and the encoder do, each said once. -/

namespace Sys2Proof

/-! ### The op byte (R40) -/

@[simp] theorem opField_opByte (cnt op : Nat) : opField (opByte cnt op) = op % 16 := by
  have h : (BitVec.ofNat 4 cnt ++ BitVec.ofNat 4 op).extractLsb' 0 4 = BitVec.ofNat 4 op := by
    apply BitVec.eq_of_getLsbD_eq
    intro i hi
    rw [BitVec.getLsbD_extractLsb', BitVec.getLsbD_append]
    simp [hi]
  simp [opField, opByte, h]

@[simp] theorem cntField_opByte (cnt op : Nat) : cntField (opByte cnt op) = cnt % 16 := by
  have h : (BitVec.ofNat 4 cnt ++ BitVec.ofNat 4 op).extractLsb' 4 4 = BitVec.ofNat 4 cnt := by
    apply BitVec.eq_of_getLsbD_eq
    intro i hi
    rw [BitVec.getLsbD_extractLsb', BitVec.getLsbD_append]
    simp [hi]
  simp [cntField, opByte, h]

/-- The two fields are the whole op byte. -/
@[simp] theorem opByte_fields (op : Byte) : opByte (cntField op) (opField op) = op := by
  apply BitVec.eq_of_getLsbD_eq
  intro i hi
  simp only [opByte, cntField, opField, BitVec.ofNat_toNat, BitVec.setWidth_eq, BitVec.getLsbD_append,
    BitVec.getLsbD_extractLsb']
  by_cases h : i < 4
  · simp [h]
  · simp [h, show 4 + (i - 4) = i by omega, show i - 4 < 4 by omega]

theorem opField_lt (op : Byte) : opField op < 16 := (op.extractLsb' 0 4).isLt

theorem cntField_lt (op : Byte) : cntField op < 16 := (op.extractLsb' 4 4).isLt

theorem legalOp_iff (op : Nat) : legalOp op = true ↔ 1 ≤ op ∧ op ≤ 5 := by simp [legalOp]

/-! ### The decoder's parts -/

@[simp] theorem decode_nil : decode [] = .incomplete := rfl

theorem decode_cons (op : Byte) (bs : List Byte) : decode (op :: bs) = decodeBody (opField op) (cntField op) bs := rfl

theorem onlyCntZero_zero (i : Instr) (rest : List Byte) : onlyCntZero 0 i rest = .request i rest := rfl

theorem onlyCntZero_of_ne (cnt : Nat) (i : Instr) (rest : List Byte) (h : cnt ≠ 0) :
    onlyCntZero cnt i rest = .rejected .reservedField rest := by
  simp [onlyCntZero, h]

/-- R42: an illegal OP, whatever its CNT, carries no operand bytes. -/
theorem decodeBody_illegal (op cnt : Nat) (bs : List Byte) (h : legalOp op = false) :
    decodeBody op cnt bs = .rejected .illegalOp bs := by
  have h' : ¬ (1 ≤ op ∧ op ≤ 5) := by simpa [legalOp] using h
  unfold decodeBody
  split <;> first | omega | rfl

/-! ### The encoder -/

/-- An encoding is never empty: its first byte is the op byte. -/
theorem encode_ne_nil (i : Instr) : encode i ≠ [] := by
  cases i <;> simp [encode]

end Sys2Proof
end

