-- ==== Sys2Proof/Laws/State.lean ====
section
/-! SUPPORT. One lemma per field of the state and per update of it, so that no later proof unfolds a record update, and the
fields of a block right after reset. -/

namespace Sys2Proof.Machine

@[simp] theorem State.setAcc_acc (s : State) (v : Half) : (s.setAcc v).acc = v := rfl
@[simp] theorem State.setAcc_accValid (s : State) (v : Half) : (s.setAcc v).accValid = s.accValid := rfl
@[simp] theorem State.setAcc_cfg (s : State) (v : Half) : (s.setAcc v).cfg = s.cfg := rfl
@[simp] theorem State.setAcc_input (s : State) (v : Half) : (s.setAcc v).input = s.input := rfl
@[simp] theorem State.setAcc_responses (s : State) (v : Half) : (s.setAcc v).responses = s.responses := rfl
@[simp] theorem State.setAcc_resets (s : State) (v : Half) : (s.setAcc v).resets = s.resets := rfl

@[simp] theorem State.markAccWritten_acc (s : State) : (s.markAccWritten).acc = s.acc := rfl
@[simp] theorem State.markAccWritten_accValid (s : State) : (s.markAccWritten).accValid = (s.accValid || !s.cfg.accResetKnown) := rfl
@[simp] theorem State.markAccWritten_cfg (s : State) : (s.markAccWritten).cfg = s.cfg := rfl
@[simp] theorem State.markAccWritten_input (s : State) : (s.markAccWritten).input = s.input := rfl
@[simp] theorem State.markAccWritten_responses (s : State) : (s.markAccWritten).responses = s.responses := rfl
@[simp] theorem State.markAccWritten_resets (s : State) : (s.markAccWritten).resets = s.resets := rfl

@[simp] theorem State.respond_acc (s : State) (st : Status) (data : List Byte) : (s.respond st data).acc = s.acc := rfl
@[simp] theorem State.respond_accValid (s : State) (st : Status) (data : List Byte) : (s.respond st data).accValid = s.accValid := rfl
@[simp] theorem State.respond_cfg (s : State) (st : Status) (data : List Byte) : (s.respond st data).cfg = s.cfg := rfl
@[simp] theorem State.respond_input (s : State) (st : Status) (data : List Byte) : (s.respond st data).input = s.input := rfl
@[simp] theorem State.respond_responses (s : State) (st : Status) (data : List Byte) : (s.respond st data).responses = s.responses ++ [⟨st, data⟩] := rfl
@[simp] theorem State.respond_resets (s : State) (st : Status) (data : List Byte) : (s.respond st data).resets = s.resets := rfl

@[simp] theorem State.raise_acc (s : State) (why : Reject) : (s.raise why).acc = s.acc := rfl
@[simp] theorem State.raise_accValid (s : State) (why : Reject) : (s.raise why).accValid = s.accValid := rfl
@[simp] theorem State.raise_cfg (s : State) (why : Reject) : (s.raise why).cfg = s.cfg := rfl
@[simp] theorem State.raise_input (s : State) (why : Reject) : (s.raise why).input = s.input := rfl
@[simp] theorem State.raise_responses (s : State) (why : Reject) : (s.raise why).responses = s.responses ++ [⟨rejectStatus why, []⟩] := rfl
@[simp] theorem State.raise_resets (s : State) (why : Reject) : (s.raise why).resets = s.resets := rfl

@[simp] theorem State.setInput_acc (s : State) (rest : List HostEvent) : (s.setInput rest).acc = s.acc := rfl
@[simp] theorem State.setInput_accValid (s : State) (rest : List HostEvent) : (s.setInput rest).accValid = s.accValid := rfl
@[simp] theorem State.setInput_cfg (s : State) (rest : List HostEvent) : (s.setInput rest).cfg = s.cfg := rfl
@[simp] theorem State.setInput_input (s : State) (rest : List HostEvent) : (s.setInput rest).input = rest := rfl
@[simp] theorem State.setInput_responses (s : State) (rest : List HostEvent) : (s.setInput rest).responses = s.responses := rfl
@[simp] theorem State.setInput_resets (s : State) (rest : List HostEvent) : (s.setInput rest).resets = s.resets := rfl

@[simp] theorem State.send_acc (s : State) (bs : List Byte) : (s.send bs).acc = s.acc := rfl
@[simp] theorem State.send_accValid (s : State) (bs : List Byte) : (s.send bs).accValid = s.accValid := rfl
@[simp] theorem State.send_cfg (s : State) (bs : List Byte) : (s.send bs).cfg = s.cfg := rfl
@[simp] theorem State.send_input (s : State) (bs : List Byte) : (s.send bs).input = s.input ++ bs.map HostEvent.byte := rfl
@[simp] theorem State.send_responses (s : State) (bs : List Byte) : (s.send bs).responses = s.responses := rfl
@[simp] theorem State.send_resets (s : State) (bs : List Byte) : (s.send bs).resets = s.resets := rfl

@[simp] theorem State.applyReset_acc (s : State) (rest : List HostEvent) : (s.applyReset rest).acc = accAfterReset s.cfg (s.resets + 1) := rfl
@[simp] theorem State.applyReset_accValid (s : State) (rest : List HostEvent) : (s.applyReset rest).accValid = false := rfl
@[simp] theorem State.applyReset_cfg (s : State) (rest : List HostEvent) : (s.applyReset rest).cfg = s.cfg := rfl
@[simp] theorem State.applyReset_input (s : State) (rest : List HostEvent) : (s.applyReset rest).input = rest := rfl
@[simp] theorem State.applyReset_responses (s : State) (rest : List HostEvent) : (s.applyReset rest).responses = s.responses := rfl
@[simp] theorem State.applyReset_resets (s : State) (rest : List HostEvent) : (s.applyReset rest).resets = s.resets + 1 := rfl

@[simp] theorem State.resetWith_accValid (c : Config) : (State.resetWith c).accValid = false := rfl
@[simp] theorem State.resetWith_cfg (c : Config) : (State.resetWith c).cfg = c := rfl
@[simp] theorem State.resetWith_input (c : Config) : (State.resetWith c).input = [] := rfl
@[simp] theorem State.resetWith_responses (c : Config) : (State.resetWith c).responses = [] := rfl
@[simp] theorem State.resetWith_resets (c : Config) : (State.resetWith c).resets = 0 := rfl
@[simp] theorem State.resetWith_acc (c : Config) : (State.resetWith c).acc = accAfterReset c 0 := rfl

/-- R20. -/
@[simp] theorem accAfterReset_known (c : Config) (n : Nat) (h : c.accResetKnown = true) :
    accAfterReset c n = 0xFFFF#16 := by
  simp [accAfterReset, accInit, h]

/-! ### ACC readable -/

theorem State.accReadable_iff (s : State) :
    s.accReadable = true ↔ s.cfg.accResetKnown = true ∨ s.accValid = true := by
  simp [State.accReadable]

@[simp] theorem State.accReadable_setAcc (s : State) (v : Half) : (s.setAcc v).accReadable = s.accReadable := rfl
@[simp] theorem State.accReadable_respond (s : State) (st : Status) (data : List Byte) :
    (s.respond st data).accReadable = s.accReadable := rfl
@[simp] theorem State.accReadable_raise (s : State) (why : Reject) : (s.raise why).accReadable = s.accReadable := rfl
@[simp] theorem State.accReadable_setInput (s : State) (rest : List HostEvent) :
    (s.setInput rest).accReadable = s.accReadable := rfl

/-- After CRC_INIT's write ACC holds a value under either parameter (R61). -/
@[simp] theorem State.accReadable_markAccWritten (s : State) : s.markAccWritten.accReadable = true := by
  cases h : s.cfg.accResetKnown <;> simp [State.accReadable, h]

/-- R21, at reset. -/
@[simp] theorem State.accReadable_resetWith (c : Config) : (State.resetWith c).accReadable = c.accResetKnown := by
  simp [State.accReadable]

end Sys2Proof.Machine
end

