-- ==== Sys2Proof/Laws/Ops.lean ====
section
/-! SUPPORT. What each shared operation does, said once: the CRC function over lists, a read of ACC, and the taking in of a
request from the host's events. -/

namespace Sys2Proof.Machine

/-! ### The CRC function -/

@[simp] theorem crcAccum_nil (a : Half) : crcAccum a [] = a := rfl

@[simp] theorem crcAccum_cons (a : Half) (b : Byte) (s : List Byte) :
    crcAccum a (b :: s) = crcAccum (crcStepByte a b) s := rfl

/-- Hashing two sequences one after the other (R16, R103). -/
theorem crcAccum_append (a : Half) (s t : List Byte) : crcAccum a (s ++ t) = crcAccum (crcAccum a s) t := by
  simp [crcAccum]

theorem crc16_eq (s : List Byte) : crc16 s = ~~~ (crcAccum 0xFFFF#16 s) := rfl

/-! ### Reading ACC -/

theorem State.withAcc_readable (s : State) (k : Half → Host.Outcome State Fault Refusal) (h : s.accReadable = true) :
    s.withAcc k = k s.acc := by
  simp [State.withAcc, h]

theorem State.withAcc_unreadable (s : State) (k : Half → Host.Outcome State Fault Refusal)
    (h : s.accReadable = false) : s.withAcc k = .fault .unwrittenAcc := by
  simp [State.withAcc, h]

/-- Everything a read of ACC can do when the request goes on. -/
theorem State.withAcc_next {s t : State} {k : Half → Host.Outcome State Fault Refusal} (h : s.withAcc k = .next t) :
    s.accReadable = true ∧ k s.acc = .next t := by
  cases hr : s.accReadable
  · simp [State.withAcc, hr] at h
  · exact ⟨rfl, by simpa [State.withAcc, hr] using h⟩

/-! ### The host's events -/

@[simp] theorem leadingBytes_map_append (bs : List Byte) (es : List HostEvent) :
    leadingBytes (bs.map HostEvent.byte ++ es) = bs ++ leadingBytes es := by
  induction bs with
  | nil => rfl
  | cons b bs ih => simp [leadingBytes, ih]

@[simp] theorem afterBytes_map_append (bs : List Byte) (es : List HostEvent) :
    afterBytes (bs.map HostEvent.byte ++ es) = afterBytes es := by
  induction bs with
  | nil => rfl
  | cons b bs ih => simp [afterBytes, ih]

@[simp] theorem leadingBytes_map (bs : List Byte) : leadingBytes (bs.map HostEvent.byte) = bs := by
  simpa [leadingBytes] using leadingBytes_map_append bs []

@[simp] theorem afterBytes_map (bs : List Byte) : afterBytes (bs.map HostEvent.byte) = [] := by
  simpa [afterBytes] using afterBytes_map_append bs []

/-- Bytes, then the first reset and what follows it: that is all the host's events are. -/
theorem leadingBytes_afterBytes (es : List HostEvent) :
    (leadingBytes es).map HostEvent.byte ++ afterBytes es = es := by
  induction es with
  | nil => rfl
  | cons e es ih => cases e <;> simp [leadingBytes, afterBytes, ih]

@[simp] theorem abortedBy_nil (bs : List Byte) : abortedBy bs [] = none := by
  cases bs <;> rfl

@[simp] theorem abortedBy_cons (b : Byte) (bs : List Byte) (tail : List HostEvent) :
    abortedBy (b :: bs) tail = none := rfl

/-- Where the host has sent bytes and no reset, the block reads them as R46 says. -/
theorem fetch_map (bs : List Byte) :
    fetch (bs.map HostEvent.byte) =
      match decode bs with
      | .request i rest => .request i (rest.map HostEvent.byte)
      | .rejected why rest => .rejected why (rest.map HostEvent.byte)
      | .incomplete => .hold := by
  simp only [fetch, leadingBytes_map, afterBytes_map]
  cases decode bs <;> simp

/-- A whole legal request at the head is taken in, whatever follows it, unless a reset aborts it. -/
theorem fetch_request {es : List HostEvent} {i : Instr} {bs : List Byte} (h : decode (leadingBytes es) = .request i bs)
    (ha : abortedBy bs (afterBytes es) = none) :
    fetch es = .request i (bs.map HostEvent.byte ++ afterBytes es) := by
  simp [fetch, h, ha]

theorem fetch_rejected {es : List HostEvent} {why : Reject} {bs : List Byte}
    (h : decode (leadingBytes es) = .rejected why bs) (ha : abortedBy bs (afterBytes es) = none) :
    fetch es = .rejected why (bs.map HostEvent.byte ++ afterBytes es) := by
  simp [fetch, h, ha]

/-- A reset with no byte before it acts at once (R93). -/
@[simp] theorem fetch_reset (rest : List HostEvent) : fetch (.reset :: rest) = .reset rest := rfl

@[simp] theorem fetch_resetInFlight (rest : List HostEvent) : fetch (.resetInFlight :: rest) = .reset rest := rfl

/-- A reset discards a request that is only partly sent (R98, R106). -/
theorem fetch_incomplete_reset {es rest : List HostEvent} {e : HostEvent} (h : decode (leadingBytes es) = .incomplete)
    (ha : afterBytes es = e :: rest) : fetch es = .reset rest := by
  simp [fetch, h, ha]

/-- A reset in flight aborts the whole request right before it (R98). -/
theorem fetch_request_aborted {es rest : List HostEvent} {i : Instr} (h : decode (leadingBytes es) = .request i [])
    (ha : afterBytes es = .resetInFlight :: rest) : fetch es = .reset rest := by
  simp [fetch, h, ha, abortedBy]

theorem fetch_rejected_aborted {es rest : List HostEvent} {why : Reject}
    (h : decode (leadingBytes es) = .rejected why []) (ha : afterBytes es = .resetInFlight :: rest) :
    fetch es = .reset rest := by
  simp [fetch, h, ha, abortedBy]

end Sys2Proof.Machine
end

