-- ==== Sys2Proof/Laws/Exec.lean ====
section
/-! SUPPORT. What each meaning and the step answer, each said once; later proofs cite these and never unfold a meaning. -/

namespace Sys2Proof.Machine

/-! ### The meanings -/

theorem exec_crcInit (s : State) :
    exec .crcInit s = .next (((s.setAcc accInit).markAccWritten).respond .ok []) := rfl

/-- Answering the same next state. -/
theorem next_inj {s t : State} (h : (.next s : Host.Outcome State Fault Refusal) = .next t) : t = s := by
  cases h; rfl

theorem exec_crcUpdate (d : Byte) (s : State) (h : s.accReadable = true) :
    exec (.crcUpdate d) s = .next ((s.setAcc (crcStepByte s.acc d)).respond .ok []) :=
  s.withAcc_readable (fun a => .next ((s.setAcc (crcStepByte a d)).respond .ok [])) h

theorem exec_crcFinal (s : State) (h : s.accReadable = true) :
    exec .crcFinal s = .next (s.respond .ok (le16 (~~~s.acc))) :=
  s.withAcc_readable (fun a => .next (s.respond .ok (le16 (~~~a)))) h

/-- R21. -/
theorem exec_crcUpdate_unreadable (d : Byte) (s : State) (h : s.accReadable = false) :
    exec (.crcUpdate d) s = .fault .unwrittenAcc :=
  s.withAcc_unreadable (fun a => .next ((s.setAcc (crcStepByte a d)).respond .ok [])) h

/-- R21. -/
theorem exec_crcFinal_unreadable (s : State) (h : s.accReadable = false) :
    exec .crcFinal s = .fault .unwrittenAcc :=
  s.withAcc_unreadable (fun a => .next (s.respond .ok (le16 (~~~a)))) h

theorem exec_frameEncode (cnt : Nat) (addr cmd : Byte) (a : Args) (s : State) :
    exec (.frameEncode cnt addr cmd a) s =
      .next (s.respond .ok
        (outboundPayload s.cfg.emptyArgsTerminator (effectiveCount cnt) addr cmd a ++
          le16 (crc16 (outboundPayload s.cfg.emptyArgsTerminator (effectiveCount cnt) addr cmd a)))) := rfl

theorem exec_frameDecode (f : InFrame) (s : State) :
    exec (.frameDecode f) s =
      .next (s.respond (frameStatus (crc16 (inboundPayload f)) (crcRx f))
        (inboundPayload f ++ le16 (crcRx f) ++ le16 (crc16 (inboundPayload f)))) := rfl

/-- Everything a request can do when it is performed: it writes ACC as R17 says and returns one response. -/
theorem exec_next_cases {i : Instr} {s t : State} (h : exec i s = .next t) :
    (i = .crcInit ∧ t = ((s.setAcc accInit).markAccWritten).respond .ok []) ∨
    (∃ d, i = .crcUpdate d ∧ s.accReadable = true ∧ t = (s.setAcc (crcStepByte s.acc d)).respond .ok []) ∨
    (i = .crcFinal ∧ s.accReadable = true ∧ t = s.respond .ok (le16 (~~~s.acc))) ∨
    (∃ cnt addr cmd a, i = .frameEncode cnt addr cmd a ∧
      t = s.respond .ok
        (outboundPayload s.cfg.emptyArgsTerminator (effectiveCount cnt) addr cmd a ++
          le16 (crc16 (outboundPayload s.cfg.emptyArgsTerminator (effectiveCount cnt) addr cmd a)))) ∨
    (∃ f, i = .frameDecode f ∧
      t = s.respond (frameStatus (crc16 (inboundPayload f)) (crcRx f))
        (inboundPayload f ++ le16 (crcRx f) ++ le16 (crc16 (inboundPayload f)))) := by
  cases i with
  | crcInit => exact .inl ⟨rfl, next_inj h⟩
  | crcUpdate d =>
    obtain ⟨hr, hk⟩ := State.withAcc_next (k := fun a => .next ((s.setAcc (crcStepByte a d)).respond .ok [])) h
    exact .inr (.inl ⟨d, rfl, hr, next_inj hk⟩)
  | crcFinal =>
    obtain ⟨hr, hk⟩ := State.withAcc_next (k := fun a => .next (s.respond .ok (le16 (~~~a)))) h
    exact .inr (.inr (.inl ⟨rfl, hr, next_inj hk⟩))
  | frameEncode cnt addr cmd a => exact .inr (.inr (.inr (.inl ⟨cnt, addr, cmd, a, rfl, next_inj h⟩)))
  | frameDecode f => exact .inr (.inr (.inr (.inr ⟨f, rfl, next_inj h⟩)))

/-! ### The step -/

theorem step_request {s : State} {i : Instr} {rest : List HostEvent} (h : fetch s.input = .request i rest) :
    step s = exec i (s.setInput rest) := by
  simp [step, h]

theorem step_rejected {s : State} {why : Reject} {rest : List HostEvent} (h : fetch s.input = .rejected why rest) :
    step s = .next ((s.setInput rest).raise why) := by
  simp [step, h]

theorem step_reset {s : State} {rest : List HostEvent} (h : fetch s.input = .reset rest) :
    step s = .next (s.applyReset rest) := by
  simp [step, h]

theorem step_hold {s : State} (h : fetch s.input = .hold) : step s = .next s := by
  simp [step, h]

/-- Everything a step can do when it answers a next state. -/
theorem step_next_cases {s t : State} (h : step s = .next t) :
    (∃ i rest, fetch s.input = .request i rest ∧ exec i (s.setInput rest) = .next t) ∨
    (∃ why rest, fetch s.input = .rejected why rest ∧ t = (s.setInput rest).raise why) ∨
    (∃ rest, fetch s.input = .reset rest ∧ t = s.applyReset rest) ∨
    (fetch s.input = .hold ∧ t = s) := by
  cases hf : fetch s.input with
  | request i rest => exact .inl ⟨i, rest, rfl, (step_request hf).symm.trans h⟩
  | rejected why rest => exact .inr (.inl ⟨why, rest, rfl, next_inj ((step_rejected hf).symm.trans h)⟩)
  | reset rest => exact .inr (.inr (.inl ⟨rest, rfl, next_inj ((step_reset hf).symm.trans h)⟩))
  | hold => exact .inr (.inr (.inr ⟨rfl, next_inj ((step_hold hf).symm.trans h)⟩))

end Sys2Proof.Machine
end

