-- ==== Sys2Proof/Laws/PerInstr.lean ====
section
/-! SUPPORT. Per-instruction facts about requests as syntax: the op byte of an encoding and its length (30_encoding.md R39,
R40, R41). -/

namespace Sys2Proof.Laws.RequestForm

/-- The OP value R41 gives each operation. -/
def opOf : Instr → Nat
  | .crcInit => 1
  | .crcUpdate _ => 2
  | .crcFinal => 3
  | .frameEncode _ _ _ _ => 4
  | .frameDecode _ => 5

/-- A well-formed request's encoding starts with its own OP, and `1 + operand_len(OP)` bytes is its whole length (R39). -/
def Statement (i : Instr) : Prop :=
  i.wellFormed = true →
    (encode i).head?.map opField = some (opOf i) ∧ (encode i).length = 1 + operandLen (opOf i)

theorem crcInit : Statement .crcInit := by
  intro _; simp [encode, opOf, operandLen]

theorem crcUpdate (d : Byte) : Statement (.crcUpdate d) := by
  intro _; simp [encode, opOf, operandLen]

theorem crcFinal : Statement .crcFinal := by
  intro _; simp [encode, opOf, operandLen]

theorem frameEncode (cnt : Nat) (addr cmd : Byte) (args : Args) : Statement (.frameEncode cnt addr cmd args) := by
  intro _; simp [encode, opOf, operandLen]

theorem frameDecode (frame : InFrame) : Statement (.frameDecode frame) := by
  intro _; simp [encode, opOf, operandLen]

end Sys2Proof.Laws.RequestForm
end

