-- ==== Sys2Proof/Laws/Run.lean ====
section
/-! SUPPORT. Runs and request sequences, each function's equations said once. -/

namespace Sys2Proof.Machine

/-! ### Runs -/

@[simp] theorem runSteps_zero (s : State) : runSteps 0 s = .next s := rfl

theorem runSteps_succ_next {n : Nat} {s t : State} (h : step s = .next t) : runSteps (n + 1) s = runSteps n t := by
  simp [runSteps, h]

theorem runSteps_succ_fault {n : Nat} {s : State} {f : Fault} (h : step s = .fault f) : runSteps (n + 1) s = .fault f := by
  simp [runSteps, h]

/-- `runSteps` is the host's own run of the machine. -/
theorem runSteps_eq_coreRun (n : Nat) (s : State) : runSteps n s = Host.Core.run Sys2Proof.core n s := by
  induction n generalizing s with
  | zero => rfl
  | succ n ih =>
    cases h : step s with
    | next t =>
      have h' : Sys2Proof.core.step s = .next t := h
      simp only [Host.Core.run, h', runSteps, h]
      exact ih t
    | fault f =>
      have h' : Sys2Proof.core.step s = .fault f := h
      simp only [Host.Core.run, h', runSteps, h]
      rfl
    | refused r =>
      have h' : Sys2Proof.core.step s = .refused r := h
      simp only [Host.Core.run, h', runSteps, h]
      rfl

/-! ### Request sequences -/

@[simp] theorem sent_nil : sent [] = [] := rfl

theorem sent_cons (r : Request) (rs : List Request) :
    sent (r :: rs) = (r.bytes ++ rs.flatMap Request.bytes).map HostEvent.byte := by
  simp [sent]

theorem sent_append (rs qs : List Request) : sent (rs ++ qs) = sent rs ++ sent qs := by
  simp [sent]

@[simp] theorem hashed_nil : hashed [] = [] := rfl

@[simp] theorem hashed_update (d : Byte) (rs : List Request) : hashed (.instr (.crcUpdate d) :: rs) = d :: hashed rs := rfl

@[simp] theorem hashed_crcInit (rs : List Request) : hashed (.instr .crcInit :: rs) = hashed rs := rfl

@[simp] theorem hashed_crcFinal (rs : List Request) : hashed (.instr .crcFinal :: rs) = hashed rs := rfl

@[simp] theorem hashed_frameEncode (cnt : Nat) (addr cmd : Byte) (a : Args) (rs : List Request) :
    hashed (.instr (.frameEncode cnt addr cmd a) :: rs) = hashed rs := rfl

@[simp] theorem hashed_frameDecode (f : InFrame) (rs : List Request) :
    hashed (.instr (.frameDecode f) :: rs) = hashed rs := rfl

@[simp] theorem hashed_erroneous (op : Byte) (opnd : List Byte) (rs : List Request) :
    hashed (.erroneous op opnd :: rs) = hashed rs := rfl

@[simp] theorem hashed_updates (bs : List Byte) : hashed (updates bs) = bs := by
  induction bs with
  | nil => rfl
  | cons b bs ih => exact congrArg (b :: ·) ih

end Sys2Proof.Machine
end

