-- ==== Sys2Proof/Tests/Slice0.lean ====
section
/-! SUPPORT. The model's own tests: the well-formedness smoke, words of the spec's encodings, the spec's test vectors
(95_test_vectors.md, named at each test), and for each statement with hypotheses a concrete input that meets them. -/

namespace Sys2Proof.Tests

open Sys2Proof Sys2Proof.Machine

/-- A block with default parameters, the given ACC, and these bytes from the host. -/
def given (acc : Half) (bs : List Byte) : State := { State.reset with acc := acc, input := bs.map HostEvent.byte }

/-- The same under `ACC_RESET_KNOWN = false`, right after reset. -/
def unwritten (bs : List Byte) : State := (State.resetWith ⟨false, true⟩).setInput (bs.map HostEvent.byte)

/-- The bytes of the last response after n steps, and ACC. -/
def after (n : Nat) (s : State) : Option (List Byte × Half) :=
  match runSteps n s with
  | .next t => t.responses.getLast?.map fun r => (r.bytes, t.acc)
  | .fault _ => none
  | .refused _ => none

/-- The step faults. -/
def faults (s : State) : Bool :=
  match step s with
  | .next _ => false
  | .fault .unwrittenAcc => true
  | .refused _ => false

/-- The host's events still to be taken in after one step, and the number of responses. -/
def leftAfter (s : State) : Option (List HostEvent × Nat) :=
  match step s with
  | .next t => some (t.input, t.responses.length)
  | .fault _ => none
  | .refused _ => none

/-! ### Well-formedness -/

/-- CNT has four bits (R40). -/
theorem test_wellFormed_refuses_count_16 : (Instr.frameEncode 16 0 0 ⟨0, 0, 0, 0, 0, 0⟩).wellFormed = false := by decide

theorem test_wellFormed_takes_count_15 : (Instr.frameEncode 15 0 0 ⟨0, 0, 0, 0, 0, 0⟩).wellFormed = true := by decide

/-! ### Decoding words written out from R39, R40 and R43 -/

theorem test_decode_crcInit : decode [0b00000001#8, 0x99#8] = .request .crcInit [0x99#8] := by decide

theorem test_decode_crcUpdate : decode [0b00000010#8, 0xA5#8] = .request (.crcUpdate 0xA5#8) [] := by decide

theorem test_decode_crcFinal : decode [0b00000011#8] = .request .crcFinal [] := by decide

theorem test_decode_frameEncode :
    decode [0b11110100#8, 1#8, 2#8, 3#8, 4#8, 5#8, 6#8, 7#8, 8#8, 9#8] =
      .request (.frameEncode 15 1#8 2#8 ⟨3#8, 4#8, 5#8, 6#8, 7#8, 8#8⟩) [9#8] := by decide

theorem test_decode_frameDecode :
    decode [0b00000101#8, 1#8, 2#8, 3#8, 4#8, 5#8, 6#8, 7#8, 8#8] =
      .request (.frameDecode ⟨1#8, 2#8, 3#8, 4#8, 5#8, 6#8, 7#8, 8#8⟩) [] := by decide

/-- X3, X6, X8 and X9 of section 2.4, and a reserved request that waits for its operand byte (R106). -/
theorem test_decode_errors :
    decode [0x0F#8] = .rejected .illegalOp [] ∧ decode [0x10#8, 7#8] = .rejected .illegalOp [7#8] ∧
    decode [0x12#8, 0x41#8, 7#8] = .rejected .reservedField [7#8] ∧
    decode (0xF5#8 :: List.replicate 9 7#8) = .rejected .reservedField [7#8] ∧ decode [0x12#8] = .incomplete := by decide

/-- X10 of section 2.4. -/
theorem test_decode_incomplete : decode [0x04#8, 1#8, 2#8, 3#8, 4#8, 5#8] = .incomplete := by decide

theorem test_tableWord :
    decodeTableWord 8 0x02 = some (.crcUpdate 0#8) ∧ decodeTableWord 16 0x4102 = some (.crcUpdate 0x41#8) ∧
    decodeTableWord 24 0x030264 = some (.frameEncode 6 2#8 3#8 ⟨0, 0, 0, 0, 0, 0⟩) ∧ decodeTableWord 8 0x15 = none := by
  decide

theorem test_withFetchWord_runs_the_word : after 1 (State.reset.withFetchWord 16 0x4102) = some ([0#8], 0x5C0A#16) := by
  decide +kernel

/-! ### The checksum engine (section 2.1) -/

/-- The bit traces of section 2.1, first and last rows. -/
theorem test_crcStepByte : crcStepByte 0xFFFF#16 0x20#8 = 0x2E85#16 ∧ crcStepByte 0x0000#16 0x01#8 = 0x1189#16 := by
  decide +kernel

/-- C10 of section 2.1: the ASCII digits 1 to 9. -/
theorem test_crc16_digits :
    crc16 [0x31#8, 0x32#8, 0x33#8, 0x34#8, 0x35#8, 0x36#8, 0x37#8, 0x38#8, 0x39#8] = 0x906E#16 := by
  decide +kernel

/-- K1. -/
theorem test_crcInit : after 1 (given 0x1234#16 [0x01#8]) = some ([0x00#8], 0xFFFF#16) := by decide +kernel

/-- K10: CRC_INIT with CNT = 1 does not initialise. -/
theorem test_crcInit_reserved : after 1 (given 0x2C95#16 [0x11#8]) = some ([0x03#8], 0x2C95#16) := by decide +kernel

/-- K3. -/
theorem test_crcUpdate_zero : after 1 (given 0xFFFF#16 [0x02#8, 0x00#8]) = some ([0x00#8], 0x0F87#16) := by decide +kernel

/-- K8: the operand byte of a reserved request is consumed and not hashed. -/
theorem test_crcUpdate_reserved :
    after 1 (given 0x2C95#16 [0x12#8, 0x38#8]) = some ([0x03#8], 0x2C95#16) ∧
    leftAfter (given 0x2C95#16 [0x12#8, 0x38#8]) = some ([], 1) := by decide +kernel

/-- K4. -/
theorem test_crcFinal : after 2 (given 0x7EC3#16 [0x03#8, 0x03#8]) = some ([0x00#8, 0x3C#8, 0x81#8], 0x7EC3#16) := by
  decide +kernel

/-- K6. -/
theorem test_crcFinal_unwritten : faults (unwritten [0x03#8]) = true := by decide +kernel

/-- K7, the third row of P6. -/
theorem test_stream_after_unwritten_reset :
    after 3 (unwritten [0x01#8, 0x02#8, 0x41#8, 0x03#8]) = some ([0x00#8, 0xF5#8, 0xA3#8], 0x5C0A#16) := by decide +kernel

/-! ### The frame codec (sections 2.2 and 2.3) -/

/-- E7: three arguments, with junk in the unused slots. -/
theorem test_frameEncode_three :
    after 1 (given 0x7EC3#16 [0x34#8, 0x02#8, 0x47#8, 0x01#8, 0x02#8, 0x03#8, 0x09#8, 0x09#8, 0x09#8]) =
      some ([0x00#8, 0x02#8, 0x47#8, 0x01#8, 0x02#8, 0x03#8, 0x00#8, 0x20#8, 0x20#8, 0x5D#8, 0xBD#8], 0x7EC3#16) := by
  decide +kernel

/-- E1 and E2: no argument, under both values of `EMPTY_ARGS_TERMINATOR`. -/
theorem test_frameEncode_none :
    after 1 (given 0xFFFF#16 [0x04#8, 0x02#8, 0x38#8, 0x20#8, 0x20#8, 0x20#8, 0x20#8, 0x20#8, 0x20#8]) =
      some ([0x00#8, 0x02#8, 0x38#8, 0x00#8, 0x20#8, 0x20#8, 0x20#8, 0x20#8, 0x20#8, 0x72#8, 0x6E#8], 0xFFFF#16) ∧
    after 1 { given 0xFFFF#16 [0x04#8, 0x02#8, 0x38#8, 0x20#8, 0x20#8, 0x20#8, 0x20#8, 0x20#8, 0x20#8] with
        cfg := ⟨true, false⟩ } =
      some ([0x00#8, 0x02#8, 0x38#8, 0x20#8, 0x20#8, 0x20#8, 0x20#8, 0x20#8, 0x20#8, 0x12#8, 0xEB#8], 0xFFFF#16) := by
  decide +kernel

/-- D1. -/
theorem test_frameDecode_ok :
    after 1 (given 0xF0B8#16 [0x05#8, 0x00#8, 0x06#8, 0x02#8, 0x07#8, 0x02#8, 0x00#8, 0xD4#8, 0x4A#8]) =
      some ([0x00#8, 0x00#8, 0x06#8, 0x02#8, 0x07#8, 0x02#8, 0x00#8, 0xD4#8, 0x4A#8, 0xD4#8, 0x4A#8], 0xF0B8#16) := by
  decide +kernel

/-- D7: the CRC sent high byte first by mistake. -/
theorem test_frameDecode_crcFail :
    after 1 (given 0xFFFF#16 [0x05#8, 0x00#8, 0x06#8, 0x02#8, 0x07#8, 0x02#8, 0x00#8, 0x4A#8, 0xD4#8]) =
      some ([0x01#8, 0x00#8, 0x06#8, 0x02#8, 0x07#8, 0x02#8, 0x00#8, 0x4A#8, 0xD4#8, 0xD4#8, 0x4A#8], 0xFFFF#16) := by
  decide +kernel

/-! ### The host's side (R98, R106) -/

/-- X10: a request that is only partly sent holds. -/
theorem test_hold :
    leftAfter (given 0x1234#16 [0x02#8]) = some ([HostEvent.byte 0x02#8], 0) := by decide +kernel

/-- A reset discards the bytes of a partial request; a reset in flight aborts a whole one; a later one does not. -/
theorem test_reset_events :
    leftAfter { given 0x1234#16 [] with input := [.byte 0x02#8, .reset, .byte 0x03#8] } = some ([.byte 0x03#8], 0) ∧
    leftAfter { given 0x1234#16 [] with input := [.byte 0x03#8, .resetInFlight, .byte 0x03#8] } =
      some ([.byte 0x03#8], 0) ∧
    leftAfter { given 0x1234#16 [] with input := [.byte 0x03#8, .reset] } = some ([.reset], 1) := by decide +kernel

/-- A reset with no request before it acts at once, and an erroneous request that is whole before a reset is answered. -/
theorem test_reset_without_request :
    leftAfter { given 0x1234#16 [] with input := [.reset, .byte 0x03#8] } = some ([.byte 0x03#8], 0) ∧
    leftAfter { given 0x1234#16 [] with input := [.resetInFlight, .byte 0x03#8] } = some ([.byte 0x03#8], 0) ∧
    leftAfter { given 0x1234#16 [] with input := [.byte 0x00#8, .reset] } = some ([.reset], 1) := by decide +kernel

/-! ### The assembler (R53, R56) -/

theorem test_assembler_text :
    assembleText "FRAME_ENCODE 2, 59, 0x15 ; one argument".toList =
      some [0x14#8, 0x02#8, 0x3B#8, 0x15#8, 0x20#8, 0x20#8, 0x20#8, 0x20#8, 0x20#8] ∧
    assembleText "CRC_UPDATE 0x41".toList = some [0x02#8, 0x41#8] ∧ assembleText ".byte 0xF0".toList = some [0xF0#8] ∧
    assembleText "CRC16".toList = some [0x01#8, 0x03#8] ∧ assembleText "  ; a comment".toList = some [] ∧
    assembleText "CRC_UPDATE 256".toList = none ∧ assembleText "FRAME_DECODE 1, 2".toList = none := by decide +kernel

/-! ### Witnesses: for each statement with hypotheses, concrete input that meets them, one for each clause -/

/-- A CRC_UPDATE with its operand byte still missing. -/
def partlySent : List HostEvent := [.byte 0x02#8]

theorem witness_ResetStateValues : defaultConfig.accResetKnown = true ∧ (Config.mk false true).accResetKnown = false := by
  decide

theorem witness_UnwrittenAccIsAModelFault :
    (unwritten [0x03#8]).cfg = ⟨false, true⟩ ∧ (unwritten [0x03#8]).accValid = false ∧
    step (unwritten [0x03#8]) = .fault .unwrittenAcc := ⟨rfl, rfl, rfl⟩

theorem witness_ReadyAtOnceAfterReset :
    decode [0x03#8, 0x01#8] = .request .crcFinal [0x01#8] ∧
    decode (0x04#8 :: List.replicate 8 0x20#8) =
      .request (.frameEncode 0 0x20#8 0x20#8 ⟨0x20#8, 0x20#8, 0x20#8, 0x20#8, 0x20#8, 0x20#8⟩) [] ∧
    decode (0x05#8 :: List.replicate 8 0x00#8) =
      .request (.frameDecode ⟨0x00#8, 0x00#8, 0x00#8, 0x00#8, 0x00#8, 0x00#8, 0x00#8, 0x00#8⟩) [] := by decide

theorem witness_ResetAbortsRequestInProgress :
    ([] : List Byte).length < operandLen (opField 0x02#8) ∧ (List.replicate 7 0x00#8).length < operandLen (opField 0x05#8) ∧
    (Request.instr .crcFinal).Whole ∧ (Request.erroneous 0x00#8 []).Whole ∧ (Request.erroneous 0x12#8 [0x38#8]).Whole ∧
    Instr.crcFinal.wellFormed = true ∧ ∃ t, exec .crcInit State.reset = .next t :=
  ⟨by decide, by decide, rfl, ⟨.inl (by decide), by decide⟩, ⟨.inr (by decide), by decide⟩, rfl, _, rfl⟩

theorem witness_NextResponseAfterResetIsTheNextRequests :
    ([] : List Byte).length < operandLen (opField 0x02#8) ∧ (List.replicate 7 0x00#8).length < operandLen (opField 0x04#8) ∧
    (Request.instr (.crcUpdate 0x41#8)).Whole ∧ (Request.erroneous 0xF0#8 []).Whole ∧ Instr.crcFinal.wellFormed = true :=
  ⟨by decide, by decide, rfl, ⟨.inl (by decide), by decide⟩, rfl⟩

theorem witness_SingleByteChangeChangesCrc :
    1 < ([0x10#8, 0x20#8] : List Byte).length ∧ ([0x10#8, 0x20#8] : List Byte)[1]? ≠ some 0x21#8 := by decide

/-- Both branches of the bit step. -/
theorem witness_BitStepBits : ((0xFFFF#16).getLsbD 0 ^^ false) = true ∧ ((0xFFFF#16).getLsbD 0 ^^ true) = false := by decide

/-- Equal results of equal operands, and an ACC that a byte leaves unchanged. -/
theorem witness_ByteStepIsInjective :
    crcStepByte 0x1234#16 0x56#8 = crcStepByte 0x1234#16 0x56#8 ∧ crcStepByte 0x0000#16 0x00#8 = 0x0000#16 :=
  ⟨rfl, by decide +kernel⟩

theorem witness_TwoBitErrorsChangeCrc : 46 < 47 ∧ 47 < 48 ∧ 0 < 1 := by decide

/-- The reserved op bytes of CRC_INIT, CRC_UPDATE and CRC_FINAL at CNT = 1 and CNT = 15. -/
theorem witness_reserved_counts :
    BitVec.ofNat 8 (16 * 1 + 1) = 0x11#8 ∧ BitVec.ofNat 8 (16 * 15 + 1) = 0xF1#8 ∧ BitVec.ofNat 8 (16 * 1 + 2) = 0x12#8 ∧
    BitVec.ofNat 8 (16 * 15 + 2) = 0xF2#8 ∧ BitVec.ofNat 8 (16 * 1 + 3) = 0x13#8 ∧ BitVec.ofNat 8 (16 * 15 + 3) = 0xF3#8 := by
  decide

theorem witness_CrcInitRule :
    (given 0x2C95#16 [0x11#8]).input = [BitVec.ofNat 8 (16 * 1 + 1)].map HostEvent.byte ∧
    ∃ t, exec .crcInit State.reset = .next t ∧ ∃ u, exec .crcInit t = .next u :=
  ⟨by decide, _, rfl, _, rfl⟩

theorem witness_CrcUpdateRule :
    State.reset.cfg.accResetKnown = true ∧ ({ unwritten [] with accValid := true } : State).accValid = true ∧
    (given 0x2C95#16 [0x12#8, 0x38#8]).input = [BitVec.ofNat 8 (16 * 1 + 2), 0x38#8].map HostEvent.byte := by decide

theorem witness_CrcFinalRule :
    State.reset.cfg.accResetKnown = true ∧ (unwritten []).cfg.accResetKnown = false ∧ (unwritten []).accValid = false ∧
    (given 0x2C95#16 [0xF3#8]).input = [BitVec.ofNat 8 (16 * 15 + 3)].map HostEvent.byte ∧
    (∃ t, exec .crcFinal State.reset = .next t ∧ ∃ u, exec .crcFinal t = .next u) ∧
    ∃ t, exec .crcInit (unwritten []) = .next t ∧ ∃ u, exec .crcFinal t = .next u :=
  ⟨rfl, rfl, rfl, by decide, ⟨_, rfl, _, rfl⟩, _, rfl, _, rfl⟩

theorem witness_CrcFinalRule_stream :
    after 10 (State.reset.setInput (sent (.instr .crcInit :: updates (List.replicate 8 0x20#8) ++ [.instr .crcFinal]))) =
      some ([0x00#8, 0xA8#8, 0x3D#8], 0xC257#16) := by decide +kernel

theorem witness_AccAccess :
    (∃ t, exec (.crcUpdate 0x41#8) State.reset = .next t) ∧ (∃ t, exec .crcFinal State.reset = .next t) ∧
    (∃ t, exec (.frameEncode 0 0 0 ⟨0, 0, 0, 0, 0, 0⟩) State.reset = .next t) ∧
    fetch (given 0x2C95#16 [0x00#8]).input = .rejected .illegalOp [] :=
  ⟨⟨_, rfl⟩, ⟨_, rfl⟩, ⟨_, rfl⟩, by decide⟩

theorem witness_PerformedRequestFrame : ∃ t, exec (.crcUpdate 0x41#8) State.reset = .next t := ⟨_, rfl⟩

/-- A stream with a CRC_FINAL, a frame request and both kinds of erroneous request between its members (R64, R104). -/
def interleaved : List Request :=
  [.instr (.crcUpdate 0x31#8), .erroneous 0x00#8 [], .erroneous 0x12#8 [0x32#8], .instr .crcFinal,
    .instr (.frameEncode 15 0 0 ⟨0, 0, 0, 0, 0, 0⟩), .instr (.crcUpdate 0x32#8)]

theorem witness_StreamLaw : ∀ r ∈ interleaved, r.Whole ∧ r ≠ .instr .crcInit := by
  simp [interleaved, Request.Whole, Instr.wellFormed]
  decide

theorem witness_StreamLaw_run :
    after 8 (State.reset.setInput (sent (.instr .crcInit :: interleaved ++ [.instr .crcFinal]))) =
      some (0x00#8 :: le16 (crc16 [0x31#8, 0x32#8]), 0x4D53#16) := by decide +kernel

theorem witness_EmptyStream :
    after 2 ((unwritten []).setInput (sent [.instr .crcInit, .instr .crcFinal])) =
      some ([0x00#8, 0x00#8, 0x00#8], 0xFFFF#16) := by decide +kernel

/-- R66's example, run. -/
theorem witness_PrefixLaw :
    after 4 (State.reset.setInput (sent (.instr .crcInit :: updates [0x02#8, 0x38#8] ++ .instr .crcFinal ::
      updates (List.replicate 6 0x20#8) ++ [.instr .crcFinal]))) = some ([0x00#8, 0x3C#8, 0x81#8], 0x7EC3#16) := by
  decide +kernel

/-- P5, run. -/
theorem witness_InterleavedStreamsShareAcc :
    after 7 (State.reset.setInput (sent (.instr .crcInit :: updates [0x20#8] ++ .instr .crcInit :: updates [0x41#8] ++
      .instr .crcFinal :: updates [0x20#8] ++ [.instr .crcFinal]))) = some ([0x00#8, 0xFB#8, 0x71#8], 0x8E04#16) := by
  decide +kernel

theorem witness_OnlyFaultIsUnwrittenAcc :
    step (unwritten [0x02#8, 0x41#8]) = .fault .unwrittenAcc ∧ decode [0xF1#8] = .rejected .reservedField [] ∧
    (∃ t, exec .crcInit (unwritten []) = .next t) ∧
    (0xF1#8).toNat % 16 = 1 ∧ (0xF1#8).toNat / 16 ≠ 0 := ⟨rfl, by decide, ⟨_, rfl⟩, by decide⟩

theorem witness_UnwrittenAccIsInvisible :
    (unwritten [0x01#8]).accReadable = false ∧ (∃ t, step (unwritten [0x01#8]) = .next t) ∧
    step (unwritten [0x03#8]) = .fault .unwrittenAcc := ⟨by decide, ⟨_, rfl⟩, rfl⟩

theorem witness_InitFirstIsPortable : ∀ r ∈ interleaved, r.Whole := fun r h => (witness_StreamLaw r h).1

theorem witness_FrameEncodeRule : 0 ≤ 15 ∧ 15 ≤ 15 ∧ (State.resetWith ⟨true, false⟩).cfg.emptyArgsTerminator = false := by
  decide

theorem witness_ArgumentsBeyondTheCountAreIgnored :
    6 ≤ 6 ∧ 6 ≤ 15 ∧ 15 ≤ 15 ∧ (0 < min 1 6 → (⟨1, 2, 3, 4, 5, 6⟩ : Args).a0 = (⟨1, 0, 0, 0, 0, 0⟩ : Args).a0) ∧
    ¬ 1 < min 1 6 := by decide

/-- R77's pair: N = 3 with 1, 2, 3 and N = 6 with 1, 2, 3, 0x00, 0x20, 0x20. -/
theorem witness_ShortFrameEqualsPaddedFrame :
    exec (.frameEncode 3 0x02#8 0x47#8 ⟨1#8, 2#8, 3#8, 9#8, 9#8, 9#8⟩) State.reset =
      exec (.frameEncode 6 0x02#8 0x47#8 ⟨1#8, 2#8, 3#8, 0x00#8, 0x20#8, 0x20#8⟩) State.reset ∧
    State.reset.cfg.emptyArgsTerminator = true ∧ (State.resetWith ⟨true, false⟩).cfg.emptyArgsTerminator = false :=
  ⟨rfl, rfl, rfl⟩

theorem witness_FrameDecodeVectors :
    (given 0xFFFF#16 (0x05#8 :: List.replicate 8 0x00#8)).input = (0x05#8 :: List.replicate 8 0x00#8).map HostEvent.byte ∧
    (given 0xFFFF#16 [0x05#8, 0x00#8, 0x06#8, 0x02#8, 0x07#8, 0x02#8, 0x00#8, 0xD4#8, 0x4A#8]).input =
      [0x05#8, 0x00#8, 0x06#8, 0x02#8, 0x07#8, 0x02#8, 0x00#8, 0xD4#8, 0x4A#8].map HostEvent.byte := ⟨rfl, rfl⟩

/-- D11 as 64 bits, its last bit flipped. -/
theorem witness_EverySingleBitFlipIsDetected :
    63 < 64 ∧
    (∃ t, exec (.frameDecode (frameOfBits 0xF78F000000000000#64)) State.reset = .next t ∧
      t.responses.getLast?.map Response.status = some .ok) ∧
    ∃ u, exec (.frameDecode (frameOfBits (0xF78F000000000000#64 ^^^ (1#64 <<< 63)))) State.reset = .next u :=
  ⟨by decide, ⟨_, rfl, by decide +kernel⟩, _, rfl⟩

theorem witness_FrameRequestsArePure :
    (∃ t, exec (.frameDecode ⟨0, 0, 0, 0, 0, 0, 0, 0⟩) (unwritten []) = .next t) ∧
    exec .crcFinal (unwritten []) = .fault .unwrittenAcc ∧ ∃ v, exec .crcInit (unwritten []) = .next v :=
  ⟨⟨_, rfl⟩, rfl, _, rfl⟩

theorem witness_IdempotentRequests :
    ∃ t, exec .crcFinal State.reset = .next t ∧ ∃ u, exec .crcFinal t = .next u := ⟨_, rfl, _, rfl⟩

theorem witness_DecodeEncode : (Instr.frameEncode 15 1#8 2#8 ⟨3#8, 4#8, 5#8, 6#8, 7#8, 8#8⟩).wellFormed = true := by decide

theorem witness_EncodeDecode : decode [0x02#8, 0x41#8, 0x03#8] = .request (.crcUpdate 0x41#8) [0x03#8] := by decide

/-- One op byte of each class, and a partial request. -/
theorem witness_DecodingIsTotal :
    (0xF5#8).toNat % 16 = 5 ∧ (0xF5#8).toNat / 16 = 15 ∧ (0x06#8).toNat % 16 = 6 ∧ (0xF0#8).toNat % 16 = 0 ∧
    (0x14#8).toNat % 16 = 4 ∧ (0x14#8).toNat / 16 = 1 ∧ (0x05#8).toNat / 16 = 0 ∧ (0x11#8).toNat % 16 = 1 ∧
    (0x11#8).toNat / 16 = 1 ∧ ([] : List Byte).length < 1 ∧ (List.replicate 7 0x00#8).length < 8 := by decide

theorem witness_AssembledFrameEncode :
    ([] : List Byte).length ≤ 15 ∧ (List.replicate 15 0x01#8).length ≤ 15 ∧ 15 < (List.replicate 16 0x01#8).length ∧
    (List.replicate 9 0x01#8).length ≠ 8 := by decide

theorem witness_PseudoInstructions :
    AsmLine.bytes (.crc16 []) = some [0x01#8, 0x03#8] ∧
    (given 0xFFFF#16 [0x01#8, 0x03#8]).input = [0x01#8, 0x03#8].map HostEvent.byte := by decide

theorem witness_IllegalOpIsAnswered :
    (0x00#8).toNat % 16 = 0 ∧ 6 ≤ (0xF6#8).toNat % 16 ∧ 6 ≤ (0xFF#8).toNat % 16 ∧
    (given 0x2C95#16 [0x00#8]).input = [0x00#8].map HostEvent.byte := by decide

theorem witness_ReservedFieldIsAnswered :
    0 ≤ 15 ∧ (0x15#8).toNat % 16 = 5 ∧ (List.replicate 8 0x00#8).length = 8 ∧ (0x15#8).toNat / 16 ≠ 0 ∧
    (0x12#8).toNat % 16 = 2 ∧ (0x12#8).toNat / 16 ≠ 0 ∧ (0xF1#8).toNat % 16 = 1 ∧ (0xF1#8).toNat / 16 ≠ 0 ∧
    (0x13#8).toNat % 16 = 3 ∧ (0x13#8).toNat / 16 ≠ 0 := by decide

theorem witness_ErrorsChangeNoState :
    (Request.erroneous 0x15#8 (List.replicate 8 0x00#8)).Whole ∧ (Request.erroneous 0xF0#8 []).Whole ∧
    ∃ t, exec (.frameDecode ⟨0, 0, 0, 0, 0, 0, 0, 0⟩) State.reset = .next t ∧
      t.responses.getLast?.map Response.status = some .crcFail :=
  ⟨⟨.inr (by decide), by decide⟩, ⟨.inl (by decide), by decide⟩, _, rfl, by decide +kernel⟩

theorem witness_StepRunsTheDecodedRequest :
    decode [0x03#8, 0x01#8] = .request .crcFinal [0x01#8] ∧
    (given 0x7EC3#16 [0x03#8, 0x01#8]).input = (encode .crcFinal).map HostEvent.byte ++ [.byte 0x01#8] ∧
    ([.byte 0x01#8] : List HostEvent).head? ≠ some .resetInFlight := by decide

theorem witness_PartialRequestHolds :
    ([] : List Byte).length < operandLen (opField 0x02#8) ∧
    (List.replicate 7 0x00#8).length < operandLen (opField 0x15#8) ∧ partlySent = [0x02#8].map HostEvent.byte ∧
    encode (.crcUpdate 0x41#8) = [0x02#8] ++ [0x41#8] ∧
    partlySent ++ [HostEvent.reset] = [0x02#8].map HostEvent.byte ++ HostEvent.reset :: [] := by decide

theorem witness_OneRequestOneResponse :
    (∃ t, step (given 0x7EC3#16 [0x03#8]) = .next t) ∧ (∃ t, step (State.reset.setInput [.reset]) = .next t) ∧
    ∃ t, step State.reset = .next t := ⟨⟨_, rfl⟩, ⟨_, rfl⟩, _, rfl⟩

theorem witness_LaterBytesDoNotMatter :
    ¬ State.Waiting (given 0x7EC3#16 [0x03#8]) ∧ (∃ t, step (given 0x7EC3#16 [0x03#8]) = .next t) ∧
    step (unwritten [0x03#8]) = .fault .unwrittenAcc :=
  ⟨by unfold State.Waiting; decide, ⟨_, rfl⟩, rfl⟩

theorem witness_StepKeepsInvariant : State.Inv State.reset ∧ ∃ t, step (given 0x7EC3#16 [0x03#8]) = .next t :=
  ⟨⟨by decide, by intro r h; simp [State.reset, State.resetWith] at h⟩, _, rfl⟩

theorem witness_ReachableStatesAreSafe : Reachable ⟨true, true⟩ (State.reset.setInput [.byte 0x03#8]) :=
  Reachable.host [.byte 0x03#8] Reachable.reset

end Sys2Proof.Tests
end

section
/-! PROOFS. Performing requests: what a well-formed request's bytes at the head of the host's events make the block do,
what each request writes to ACC, and what a run of CRC_UPDATEs leaves. -/

namespace Sys2Proof.Machine

/-! ### ACC and acc_valid -/

/-- R21: ACC holds no value exactly while the parameter is `false` and `acc_valid` is 0. -/
theorem State.accReadable_eq_false_iff (s : State) :
    s.accReadable = false ↔ s.cfg.accResetKnown = false ∧ s.accValid = false := by
  simp [State.accReadable]

/-- What a performed request leaves in ACC that held `a` before it (R17). -/
def accAfterRequest : Instr → Half → Half
  | .crcInit, _ => accInit
  | .crcUpdate d, a => crcStepByte a d
  | .crcFinal, a => a
  | .frameEncode _ _ _ _, a => a
  | .frameDecode _, a => a

theorem exec_acc {i : Instr} {s t : State} (h : exec i s = .next t) : t.acc = accAfterRequest i s.acc := by
  obtain ⟨rfl, rfl⟩ | ⟨d, rfl, -, rfl⟩ | ⟨rfl, -, rfl⟩ | ⟨cnt, addr, cmd, args, rfl, rfl⟩ | ⟨f, rfl, rfl⟩ :=
    exec_next_cases h <;> rfl

/-- Only CRC_INIT and CRC_UPDATE write ACC (R17). -/
theorem accAfterRequest_of_not_writer {i : Instr} (hu : ∀ d, i ≠ .crcUpdate d) (hi : i ≠ .crcInit) (a : Half) :
    accAfterRequest i a = a := by
  cases i with
  | crcInit => exact absurd rfl hi
  | crcUpdate d => exact absurd rfl (hu d)
  | crcFinal => rfl
  | frameEncode cnt addr cmd args => rfl
  | frameDecode f => rfl

theorem exec_crcFinal_next {s t : State} (h : exec .crcFinal s = .next t) :
    s.accReadable = true ∧ t = s.respond .ok (le16 (~~~s.acc)) := by
  simpa using exec_next_cases h

/-- No request but CRC_FINAL shows what ACC holds: whatever stands in it, the request is performed and answered alike. -/
theorem exec_setAcc {i : Instr} {s t : State} (a : Half) (hi : i ≠ .crcFinal) (h : exec i s = .next t) :
    ∃ u, exec i (s.setAcc a) = .next u ∧ u.responses = t.responses ∧ u.accValid = t.accValid := by
  obtain ⟨rfl, rfl⟩ | ⟨d, rfl, hr, rfl⟩ | ⟨rfl, -, -⟩ | ⟨cnt, addr, cmd, args, rfl, rfl⟩ | ⟨f, rfl, rfl⟩ :=
    exec_next_cases h
  case inr.inl => exact ⟨_, exec_crcUpdate d _ (by simpa using hr), rfl, rfl⟩
  case inr.inr.inl => exact absurd rfl hi
  all_goals exact ⟨_, rfl, rfl, rfl⟩

/-- An erroneous request neither reads nor writes ACC (R17, R85). -/
theorem step_setAcc_of_rejected {s : State} {why : Reject} {rest : List HostEvent}
    (h : fetch s.input = .rejected why rest) (a : Half) :
    step (s.setAcc a) = .next (((s.setAcc a).setInput rest).raise why) :=
  step_rejected h

/-! ### The request at the head -/

/-- The decoder reads back a well-formed request, whatever bytes follow it (R39, R46). -/
theorem decode_encode_append {i : Instr} (h : i.wellFormed = true) (bs : List Byte) :
    decode (encode i ++ bs) = .request i bs := by
  cases i with
  | frameEncode cnt addr cmd args =>
    have hcnt : cnt % 16 = cnt := Nat.mod_eq_of_lt (Nat.lt_succ_of_le (of_decide_eq_true h))
    simp [encode, decode_cons, decodeBody, decodeFrameEncode, hcnt]
  | _ => simp [encode, decode_cons, decodeBody, decodeUpdate, decodeFrameDecode, onlyCntZero]

/-- A step performs the well-formed request that the host sends next. -/
theorem step_sent_instr {s : State} {i : Instr} {rs : List Request} (hi : i.wellFormed = true)
    (hin : s.input = sent (.instr i :: rs)) : step s = exec i (s.setInput (sent rs)) := by
  apply step_request
  rw [hin, sent_cons, fetch_map, Request.bytes, decode_encode_append hi]
  rfl

/-! ### Streams -/

/-- A run of CRC_UPDATEs hashes their bytes in order and answers each with an empty OK (R62, R64). -/
theorem runSteps_updates (bs : List Byte) (rs : List Request) (n : Nat) {s : State} (hr : s.accReadable = true)
    (hin : s.input = sent (updates bs ++ rs)) :
    runSteps (bs.length + n) s = runSteps n { s with
      acc := crcAccum s.acc bs, input := sent rs, responses := s.responses ++ List.replicate bs.length okEmpty } := by
  induction bs generalizing s with
  | nil =>
    simp [show sent rs = s.input from hin.symm]
  | cons b bs ih =>
    have hstep : step s = .next (((s.setInput (sent (updates bs ++ rs))).setAcc (crcStepByte s.acc b)).respond .ok []) :=
      (step_sent_instr rfl hin).trans (exec_crcUpdate b _ hr)
    rw [List.length_cons, Nat.add_right_comm, runSteps_succ_next hstep]
    refine (ih ?_ rfl).trans ?_
    · exact hr
    · simp [State.respond, State.setAcc, State.setInput, okEmpty, List.replicate_succ]

/-- CRC_UPDATEs and a CRC_FINAL: the answer is the complement of what ACC has then hashed, and ACC keeps it (R63, R66). -/
theorem runSteps_updates_crcFinal (bs : List Byte) {s : State} (hr : s.accReadable = true)
    (hin : s.input = sent (updates bs ++ [.instr .crcFinal])) :
    ∃ t, runSteps (bs.length + 1) s = .next t ∧
      t.responses.getLast? = some ⟨.ok, le16 (~~~(crcAccum s.acc bs))⟩ ∧ t.acc = crcAccum s.acc bs := by
  refine ⟨_, (runSteps_updates bs _ 1 hr hin).trans
    (runSteps_succ_next ((step_sent_instr rfl rfl).trans (exec_crcFinal _ hr))), ?_, rfl⟩
  simp

/-- A CRC_INIT before them makes the stream start afresh, whatever ACC held (R61, R64). -/
theorem runSteps_crcInit_updates_crcFinal (bs : List Byte) {s : State}
    (hin : s.input = sent (.instr .crcInit :: updates bs ++ [.instr .crcFinal])) :
    ∃ t, runSteps (bs.length + 2) s = .next t ∧
      t.responses.getLast? = some ⟨.ok, le16 (crc16 bs)⟩ ∧ t.acc = crcAccum accInit bs := by
  have hstep := (step_sent_instr rfl hin).trans (exec_crcInit _)
  rw [runSteps_succ_next hstep]
  exact runSteps_updates_crcFinal bs (by simp) rfl

/-! ### The state family's obligations -/

/-- Settles O2: both streams hash from the value 0xFFFF, which reset and CRC_INIT leave alike. -/
theorem streamAfterResetNeedsNoInit : Obligations.StreamAfterResetNeedsNoInit := by
  intro e bs
  have hacc : (State.resetWith ⟨true, e⟩).acc = accInit := accAfterReset_known ⟨true, e⟩ 0 rfl
  obtain ⟨t, ht, htlast, htacc⟩ :=
    runSteps_updates_crcFinal bs (s := (State.resetWith ⟨true, e⟩).setInput _) (by simp) rfl
  obtain ⟨u, hu, hulast, huacc⟩ :=
    runSteps_crcInit_updates_crcFinal bs (s := (State.resetWith ⟨true, e⟩).setInput _) rfl
  rw [State.setInput_acc, hacc] at htlast htacc
  exact ⟨hacc, ⟨_, exec_crcInit _, hacc.symm⟩, t, u, ht, hu, htlast, hulast, htacc.trans huacc.symm⟩

/-- Settles O19: what a request writes to ACC and whether its answer shows ACC, by cases on the request. -/
theorem accAccess : Obligations.AccAccess := by
  refine ⟨fun i s t h => ?_, fun i s t a hi h => ?_, fun s t h => ?_, fun s why rest h => ?_⟩
  · rw [exec_acc h]
    cases i <;> rfl
  · obtain ⟨u, hu, hresp, hvalid⟩ := exec_setAcc a hi h
    refine ⟨u, hu, hresp, hvalid, ?_, fun hupd hinit => ?_⟩
    · rintro rfl
      exact (exec_acc hu).trans (exec_acc h).symm
    · exact (exec_acc hu).trans (accAfterRequest_of_not_writer hupd hinit a)
  · rw [(exec_crcFinal_next h).2, State.respond_responses]
  · exact ⟨_, step_rejected h, rfl, fun a => ⟨_, step_setAcc_of_rejected h a, rfl, rfl⟩⟩

/-- Settles O3: while `acc_valid` is 0 under `ACC_RESET_KNOWN = false`, ACC is unreadable. -/
theorem unwrittenAccIsAModelFault : Obligations.UnwrittenAccIsAModelFault := by
  intro c hc
  refine ⟨State.resetWith_accValid c, fun s rest _ => s.applyReset_accValid rest, ?_, ?_,
    fun s n => runSteps_succ_fault⟩
  · rintro s rfl
    exact ⟨_, exec_crcInit s, by simp [hc]⟩
  · rintro s rfl hvalid
    have hr := s.accReadable_eq_false_iff.mpr ⟨hc, hvalid⟩
    exact ⟨exec_crcFinal_unreadable s hr, fun d => exec_crcUpdate_unreadable d s hr⟩

end Sys2Proof.Machine
end

section
/-! PROOFS. Encodings: the op byte's fields as numbers, how many operand bytes the decoder takes and what it makes of
them, and what the block answers to a request that is in error. -/

namespace Sys2Proof

/-! ### The op byte's fields as numbers (R40) -/

theorem opField_eq_mod (op : Byte) : opField op = op.toNat % 16 := by
  simp [opField]

theorem cntField_eq_div (op : Byte) : cntField op = op.toNat / 16 := by
  have hlt : op.toNat / 16 < 16 := Nat.div_lt_of_lt_mul op.isLt
  simp [cntField, Nat.shiftRight_eq_div_pow, Nat.mod_eq_of_lt hlt]

theorem legalOp_eq_false_iff (op : Nat) : legalOp op = false ↔ op = 0 ∨ 6 ≤ op := by
  simp only [legalOp, decide_eq_false_iff_not]
  omega

/-! ### The operand bytes (R39, R46) -/

theorem operandLen_eq_ite (op : Nat) : operandLen op = if op = 2 then 1 else if op = 4 ∨ op = 5 then 8 else 0 := by
  unfold operandLen
  split <;> simp_all

/-- R42: an illegal OP has no operand bytes. -/
theorem operandLen_illegal {op : Nat} (h : legalOp op = false) : operandLen op = 0 := by
  have hop := (legalOp_eq_false_iff op).mp h
  rw [operandLen_eq_ite, if_neg (by omega), if_neg (by omega)]

theorem exists_bytes_of_length_eq_eight {bs : List Byte} (h : bs.length = 8) :
    ∃ b0 b1 b2 b3 b4 b5 b6 b7, bs = [b0, b1, b2, b3, b4, b5, b6, b7] :=
  match bs, h with
  | [b0, b1, b2, b3, b4, b5, b6, b7], _ => ⟨b0, b1, b2, b3, b4, b5, b6, b7, rfl⟩

theorem decodeFrameEncode_short (cnt : Nat) {bs : List Byte} (h : bs.length < 8) :
    decodeFrameEncode cnt bs = .incomplete := by
  unfold decodeFrameEncode
  split
  · simp only [List.length_cons] at h
    omega
  · rfl

theorem decodeFrameDecode_short (cnt : Nat) {bs : List Byte} (h : bs.length < 8) :
    decodeFrameDecode cnt bs = .incomplete := by
  unfold decodeFrameDecode
  split
  · simp only [List.length_cons] at h
    omega
  · rfl

/-- A request waits for its operand bytes before any test is made, whatever its CNT (R46, R106). -/
theorem decodeBody_short {op : Nat} (cnt : Nat) {bs : List Byte} (h : bs.length < operandLen op) :
    decodeBody op cnt bs = .incomplete := by
  unfold operandLen at h
  split at h
  · obtain rfl := List.length_eq_zero_iff.mp (Nat.lt_one_iff.mp h)
    rfl
  · exact decodeFrameEncode_short cnt h
  · exact decodeFrameDecode_short cnt h
  · exact absurd h (Nat.not_lt_zero _)

/-- The operand bytes of a legal OP name one operation, and the one test left is that of CNT, which FRAME_ENCODE does not
have (R44, R46). -/
theorem decodeBody_operands {op : Nat} (cnt : Nat) {opnd : List Byte} (rest : List Byte) (hop : legalOp op = true)
    (hlen : opnd.length = operandLen op) :
    ∃ i, encode i = opByte (if op = 4 then cnt else 0) op :: opnd ∧
      decodeBody op cnt (opnd ++ rest) = if op = 4 then .request i rest else onlyCntZero cnt i rest := by
  obtain ⟨hlo, hhi⟩ := (legalOp_iff op).mp hop
  obtain rfl | rfl | rfl | rfl | rfl : op = 1 ∨ op = 2 ∨ op = 3 ∨ op = 4 ∨ op = 5 := by omega
  · obtain rfl := List.length_eq_zero_iff.mp hlen
    exact ⟨.crcInit, rfl, rfl⟩
  · obtain ⟨d, rfl⟩ := List.length_eq_one_iff.mp hlen
    exact ⟨.crcUpdate d, rfl, rfl⟩
  · obtain rfl := List.length_eq_zero_iff.mp hlen
    exact ⟨.crcFinal, rfl, rfl⟩
  · obtain ⟨addr, cmd, a0, a1, a2, a3, a4, a5, rfl⟩ := exists_bytes_of_length_eq_eight hlen
    exact ⟨.frameEncode cnt addr cmd ⟨a0, a1, a2, a3, a4, a5⟩, rfl, rfl⟩
  · obtain ⟨b0, b1, b2, b3, b4, b5, b6, b7, rfl⟩ := exists_bytes_of_length_eq_eight hlen
    exact ⟨.frameDecode ⟨b0, b1, b2, b3, b4, b5, b6, b7⟩, rfl, rfl⟩

/-- R44: a CNT that must be 0 and is not rejects the request, and its operand bytes are consumed. -/
theorem decodeBody_reserved {op cnt : Nat} {opnd : List Byte} (rest : List Byte) (hop : legalOp op = true)
    (hlen : opnd.length = operandLen op) (hne : op ≠ 4) (hcnt : cnt ≠ 0) :
    decodeBody op cnt (opnd ++ rest) = .rejected .reservedField rest := by
  obtain ⟨i, -, hdec⟩ := decodeBody_operands cnt rest hop hlen
  rw [hdec, if_neg hne, onlyCntZero_of_ne cnt i rest hcnt]

/-- A legal OP with a CNT it takes is read as the request whose encoding these bytes are (R46). -/
theorem decodeBody_legal {op cnt : Nat} {opnd : List Byte} (rest : List Byte) (hop : legalOp op = true)
    (hlen : opnd.length = operandLen op) (hcnt : op = 4 ∨ cnt = 0) :
    ∃ i, decodeBody op cnt (opnd ++ rest) = .request i rest ∧ encode i = opByte cnt op :: opnd := by
  obtain ⟨i, henc, hdec⟩ := decodeBody_operands cnt rest hop hlen
  obtain rfl | rfl := hcnt
  · exact ⟨i, hdec, henc⟩
  · exact ⟨i, by simp [hdec, onlyCntZero_zero], by simpa using henc⟩

end Sys2Proof

namespace Sys2Proof.Machine

/-! ### Requests answered with an error -/

/-- A request in error at the head of the bytes sent takes its own bytes in and is answered with its status (R85). -/
theorem step_of_decode_rejected {s : State} {bs rest : List Byte} {why : Reject} (hin : s.input = bs.map HostEvent.byte)
    (h : decode bs = .rejected why rest) : step s = .next ((s.setInput (rest.map HostEvent.byte)).raise why) := by
  apply step_rejected
  rw [hin, fetch_map, h]

/-- R80: a checked frame has one of two statuses. -/
theorem frameStatus_eq_ok_or_crcFail (crcCalc crcRx : Half) :
    frameStatus crcCalc crcRx = .ok ∨ frameStatus crcCalc crcRx = .crcFail := by
  unfold frameStatus
  split
  · exact .inl rfl
  · exact .inr rfl

/-- R74: counts beyond 6 mean 6. -/
theorem effectiveCount_min (cnt : Nat) : effectiveCount (min cnt 6) = effectiveCount cnt := by
  simp [effectiveCount]

/-- R51: the status bytes from 0x04 on are reserved. -/
theorem Status.code_lt (st : Status) : st.code.toNat < 0x04 := by
  cases st <;> decide

/-! ### Pseudo-instructions (R56) -/

/-- R65: the CRC of no bytes. -/
theorem crc16_nil : crc16 [] = 0x0000#16 := by decide

@[simp] theorem flatMap_bytes_updates (bs : List Byte) :
    (updates bs).flatMap Request.bytes = bs.flatMap fun b => encode (.crcUpdate b) := by
  simp [updates, List.flatMap_map, Request.bytes]

/-- The bytes `CRC16` expands into are those of a CRC stream of its operands. -/
theorem bytes_crc16 (bytes : List Byte) :
    AsmLine.bytes (.crc16 bytes) =
      some ((Request.instr .crcInit :: updates bytes ++ [Request.instr .crcFinal]).flatMap Request.bytes) := by
  simp [AsmLine.bytes, crc16Requests, List.flatMap_map, Request.bytes]

/-! ### The encoding family's obligations -/

/-- Settles O39: the operand bytes first, then the tests of OP and CNT; the op byte values are counted one by one. -/
theorem decodingIsTotal : Obligations.DecodingIsTotal := by
  refine ⟨fun op bs => ?_, by decide +kernel, by decide +kernel, by decide +kernel⟩
  rw [← opField_eq_mod, ← cntField_eq_div]
  intro o cnt
  rw [← operandLen_eq_ite o]
  intro len
  have htake (h : len ≤ bs.length) : (bs.take len).length = len := List.length_take_of_le h
  refine ⟨decodeBody_short cnt, fun _ hop => ?_, fun h hop ⟨hne, hcnt⟩ => ?_, fun h hop hres => ?_⟩
  · have hill := (legalOp_eq_false_iff o).mpr hop
    rw [decode_cons, decodeBody_illegal _ _ _ hill, show len = 0 from operandLen_illegal hill, List.drop_zero]
  · have hdec := decodeBody_reserved (bs.drop len) ((legalOp_iff o).mpr hop) (htake h) hne hcnt
    rwa [List.take_append_drop] at hdec
  · have hcnt : o = 4 ∨ cnt = 0 := by omega
    obtain ⟨i, hdec, henc⟩ := decodeBody_legal (bs.drop len) ((legalOp_iff o).mpr hop) (htake h) hcnt
    rw [List.take_append_drop] at hdec
    exact ⟨i, hdec, by rw [henc, opByte_fields]⟩

/-- Settles O42: CRC16 is a CRC stream of its operands, run from any state, and CHECK_FRAME one FRAME_DECODE. -/
theorem pseudoInstructions : Obligations.PseudoInstructions := by
  refine ⟨fun bytes => ?_, fun bytes bs s hbs hin => ?_, fun f s => ⟨rfl, ?_⟩⟩
  · simp [bytes_crc16, Request.bytes]
  · obtain rfl := Option.some.inj ((bytes_crc16 bytes).symm.trans hbs)
    obtain ⟨t, hrun, hlast, -⟩ := runSteps_crcInit_updates_crcFinal bytes hin
    refine ⟨t, hrun, hlast, ?_⟩
    rintro rfl
    rw [hlast, crc16_nil]
  · have hin : (encode (.frameDecode f)).map HostEvent.byte = sent [.instr (.frameDecode f)] := by
      simp [sent_cons, Request.bytes]
    refine ⟨_, (step_sent_instr rfl hin).trans (exec_frameDecode f _), ?_⟩
    simpa using frameStatus_eq_ok_or_crcFail _ _

/-- Settles O44: an illegal OP is rejected at once, with the bytes after it left for the next request. -/
theorem illegalOpIsAnswered : Obligations.IllegalOpIsAnswered := by
  refine ⟨fun s op bs hop hin => step_of_decode_rejected (why := .illegalOp) (rest := bs) hin ?_, rfl⟩
  rw [← opField_eq_mod] at hop
  exact decodeBody_illegal _ _ _ ((legalOp_eq_false_iff _).mpr hop)

/-- Settles O45: the effective count is all FRAME_ENCODE uses of CNT; the other OPs reject a CNT that is not 0 once their
operand bytes are there. -/
theorem reservedFieldIsAnswered : Obligations.ReservedFieldIsAnswered := by
  refine ⟨fun cnt addr cmd a s _ => ?_, fun s op opnd bs hop hcnt hin =>
    step_of_decode_rejected (why := .reservedField) (rest := bs) hin ?_, rfl⟩
  · rw [exec_frameEncode, exec_frameEncode, effectiveCount_min]
  · rw [← opField_eq_mod] at hop
    rw [← cntField_eq_div] at hcnt
    obtain ⟨h, hlen⟩ | ⟨h, hlen⟩ | ⟨h, hlen⟩ | ⟨h, hlen⟩ := hop
    all_goals exact decodeBody_reserved bs (by rw [h]; rfl) (by rw [h]; exact hlen) (by omega) hcnt

/-- Settles O43: a response begins with the code of its status. -/
theorem statusCodes : Obligations.StatusCodes :=
  ⟨rfl, rfl, rfl, rfl, fun r => ⟨r.status.code, rfl, r.status.code_lt⟩⟩

end Sys2Proof.Machine
end

section
/-! PROOFS. The checksum engine: the CRC function bit by bit, what a whole request other than CRC_INIT does to a stream,
and where the block stops. -/

namespace Sys2Proof.Machine

/-! ### The CRC function -/

/-- Hashing from the initial value, before the final complement (R16, R57). -/
theorem crcAccum_accInit (s : List Byte) : crcAccum accInit s = ~~~(crc16 s) := by
  simp [crc16]

theorem crc16_append_singleton (s : List Byte) (b : Byte) :
    crc16 (s ++ [b]) = ~~~(crcStepByte (~~~(crc16 s)) b) := by
  rw [← crcAccum_accInit, crc16, crcAccum_append, crcAccum_cons, crcAccum_nil]

theorem crcStepBit_of_feedback {a : Half} {d : Bool} (h : (a.getLsbD 0 ^^ d) = true) :
    crcStepBit a d = (a >>> 1) ^^^ 0x8408#16 := if_pos h

theorem crcStepBit_of_no_feedback {a : Half} {d : Bool} (h : (a.getLsbD 0 ^^ d) = false) :
    crcStepBit a d = a >>> 1 := if_neg (Bool.eq_false_iff.mp h)

/-- The shift of R59 is logical. -/
theorem ushiftRight_one_getLsbD_fifteen (a : Half) : (a >>> 1).getLsbD 15 = false := by
  simp

/-- The ones of the feedback constant (R2). -/
theorem feedback_getLsbD (i : Nat) : (0x8408#16).getLsbD i = decide (i = 15 ∨ i = 10 ∨ i = 3) := by
  have hlow : ∀ j < 16, (0x8408#16).getLsbD j = decide (j = 15 ∨ j = 10 ∨ j = 3) := by decide
  by_cases hi : i < 16
  · exact hlow i hi
  · rw [BitVec.getLsbD_of_ge _ _ (by omega)]
    exact (decide_eq_false (by omega)).symm

theorem crcStepBit_getLsbD_fifteen (a : Half) (d : Bool) : (crcStepBit a d).getLsbD 15 = (a.getLsbD 0 ^^ d) := by
  cases h : (a.getLsbD 0 ^^ d)
  · rw [crcStepBit_of_no_feedback h, ushiftRight_one_getLsbD_fifteen]
  · rw [crcStepBit_of_feedback h, BitVec.getLsbD_xor, ushiftRight_one_getLsbD_fifteen]
    rfl

/-- A data bit may stand in bit 0 of the accumulator instead, and the bits above it wait there for their own step. -/
theorem crcStepBit_xor (x y : Half) : crcStepBit (x ^^^ y) false = crcStepBit x (y.getLsbD 0) ^^^ (y >>> 1) := by
  have hbit : ((x ^^^ y).getLsbD 0 ^^ false) = (x.getLsbD 0 ^^ y.getLsbD 0) := by simp
  cases h : (x.getLsbD 0 ^^ y.getLsbD 0)
  · rw [crcStepBit_of_no_feedback h, crcStepBit_of_no_feedback (hbit.trans h), BitVec.ushiftRight_xor_distrib]
  · rw [crcStepBit_of_feedback h, crcStepBit_of_feedback (hbit.trans h), BitVec.ushiftRight_xor_distrib,
      BitVec.xor_assoc, BitVec.xor_assoc, BitVec.xor_comm (y >>> 1)]

/-- After n shifts of the byte-wide form the accumulator is that of n bit steps, with the data bits still to come XOR-ed
into it (R60). -/
theorem foldl_shift_xor (a w : Half) (n : Nat) :
    (List.range n).foldl (fun x _ => crcStepBit x false) (a ^^^ w) =
      (List.range n).foldl (fun x i => crcStepBit x (w.getLsbD i)) a ^^^ (w >>> n) := by
  induction n with
  | zero => simp
  | succ n ih =>
    simp only [List.range_succ, List.foldl_append, List.foldl_cons, List.foldl_nil, ih]
    rw [crcStepBit_xor, BitVec.getLsbD_ushiftRight, ← BitVec.shiftRight_add, Nat.add_zero]

/-- R60, with the shift as a bit step of data bit 0. -/
theorem crcStepByte_eq_foldl_shift (a : Half) (b : Byte) :
    crcStepByte a b = (List.range 8).foldl (fun x _ => crcStepBit x false) (a ^^^ b.setWidth 16) := by
  have hdone : b.setWidth 16 >>> 8 = 0#16 := by
    apply BitVec.eq_of_toNat_eq
    have hb := b.isLt
    simp only [BitVec.toNat_ushiftRight, BitVec.toNat_setWidth, BitVec.toNat_ofNat, Nat.shiftRight_eq_div_pow]
    omega
  rw [foldl_shift_xor, hdone, BitVec.xor_zero]
  rfl

/-! ### What a performed request leaves unchanged -/

/-- A performed request keeps the parameters and what the host has still to come, and adds one response (R18, R24). -/
theorem exec_next_frame {i : Instr} {s t : State} (h : exec i s = .next t) :
    t.cfg = s.cfg ∧ t.input = s.input ∧ ∃ r, t.responses = s.responses ++ [r] := by
  obtain ⟨rfl, rfl⟩ | ⟨d, rfl, -, rfl⟩ | ⟨rfl, -, rfl⟩ | ⟨cnt, addr, cmd, args, rfl, rfl⟩ | ⟨f, rfl, rfl⟩ :=
    exec_next_cases h <;> exact ⟨rfl, rfl, _, rfl⟩

theorem exec_crcUpdate_next {d : Byte} {s t : State} (h : exec (.crcUpdate d) s = .next t) :
    s.accReadable = true ∧ t = (s.setAcc (crcStepByte s.acc d)).respond .ok [] := by
  simpa using exec_next_cases h

/-- No request takes ACC's value away (R21). -/
theorem exec_next_readable {i : Instr} {s t : State} (hr : s.accReadable = true) (h : exec i s = .next t) :
    t.accReadable = true := by
  obtain ⟨rfl, rfl⟩ | ⟨d, rfl, -, rfl⟩ | ⟨rfl, -, rfl⟩ | ⟨cnt, addr, cmd, args, rfl, rfl⟩ | ⟨f, rfl, rfl⟩ :=
    exec_next_cases h <;> simp [hr]

/-! ### Where the block stops -/

/-- A request is performed, or it reads ACC while that holds no value, which is the one fault (R21, R67). -/
theorem exec_next_or_fault (i : Instr) (s : State) :
    (∃ t, exec i s = .next t) ∨
      exec i s = .fault .unwrittenAcc ∧ s.accReadable = false ∧ (i = .crcFinal ∨ ∃ d, i = .crcUpdate d) := by
  cases i with
  | crcInit => exact .inl ⟨_, exec_crcInit s⟩
  | crcUpdate d =>
    cases hr : s.accReadable with
    | true => exact .inl ⟨_, exec_crcUpdate d s hr⟩
    | false => exact .inr ⟨exec_crcUpdate_unreadable d s hr, rfl, .inr ⟨d, rfl⟩⟩
  | crcFinal =>
    cases hr : s.accReadable with
    | true => exact .inl ⟨_, exec_crcFinal s hr⟩
    | false => exact .inr ⟨exec_crcFinal_unreadable s hr, rfl, .inl rfl⟩
  | frameEncode cnt addr cmd a => exact .inl ⟨_, exec_frameEncode cnt addr cmd a s⟩
  | frameDecode f => exact .inl ⟨_, exec_frameDecode f s⟩

/-- Where ACC holds a value, every request is performed. -/
theorem exec_readable (i : Instr) {s : State} (hr : s.accReadable = true) : ∃ t, exec i s = .next t := by
  obtain hnext | ⟨-, hunread, -⟩ := exec_next_or_fault i s
  · exact hnext
  · simp [hr] at hunread

theorem exec_fault_iff (i : Instr) (s : State) (f : Fault) :
    exec i s = .fault f ↔
      f = .unwrittenAcc ∧ s.accReadable = false ∧ (i = .crcFinal ∨ ∃ d, i = .crcUpdate d) := by
  constructor
  · intro h
    obtain ⟨t, ht⟩ | ⟨hf, hunread, hi⟩ := exec_next_or_fault i s
    · simp [ht] at h
    · cases hf.symm.trans h
      exact ⟨rfl, hunread, hi⟩
  · rintro ⟨rfl, hr, rfl | ⟨d, rfl⟩⟩
    · exact exec_crcFinal_unreadable s hr
    · exact exec_crcUpdate_unreadable d s hr

theorem exec_ne_refused (i : Instr) (s : State) (r : Refusal) : exec i s ≠ .refused r := by
  obtain ⟨t, ht⟩ | ⟨hf, -⟩ := exec_next_or_fault i s
  · simp [ht]
  · simp [hf]

/-- A step goes on, or it performs a request and does what that does. -/
theorem step_next_or_exec (s : State) :
    (∃ t, step s = .next t ∧ ∀ i rest, fetch s.input ≠ .request i rest) ∨
    ∃ i rest, fetch s.input = .request i rest ∧ step s = exec i (s.setInput rest) := by
  cases hf : fetch s.input with
  | request i rest => exact .inr ⟨i, rest, rfl, step_request hf⟩
  | rejected why rest => exact .inl ⟨_, step_rejected hf, by simp⟩
  | reset rest => exact .inl ⟨_, step_reset hf, by simp⟩
  | hold => exact .inl ⟨_, step_hold hf, by simp⟩

theorem step_fault_iff (s : State) (f : Fault) :
    step s = .fault f ↔
      f = .unwrittenAcc ∧ s.accReadable = false ∧
        ∃ i rest, fetch s.input = .request i rest ∧ (i = .crcFinal ∨ ∃ d, i = .crcUpdate d) := by
  obtain ⟨t, hstep, hno⟩ | ⟨i, rest, hf, hstep⟩ := step_next_or_exec s
  · simp [hstep, hno]
  · simp [hstep, hf, exec_fault_iff]

theorem step_ne_refused (s : State) (r : Refusal) : step s ≠ .refused r := by
  obtain ⟨t, hstep, -⟩ | ⟨i, rest, -, hstep⟩ := step_next_or_exec s
  · simp [hstep]
  · rw [hstep]
    exact exec_ne_refused i _ r

/-! ### Requests answered with an error -/

theorem onlyCntZero_rejected {cnt : Nat} {i : Instr} {bs rest : List Byte} {why : Reject}
    (h : onlyCntZero cnt i bs = .rejected why rest) : why = .reservedField ∧ cnt ≠ 0 := by
  unfold onlyCntZero at h
  split at h
  · simp at h
  · next hcnt =>
    cases h
    exact ⟨rfl, hcnt⟩

/-- R67: a CRC request is in error only by its CNT. -/
theorem decodeBody_crc_rejected {op cnt : Nat} {bs rest : List Byte} {why : Reject} (hop : op = 1 ∨ op = 2 ∨ op = 3)
    (h : decodeBody op cnt bs = .rejected why rest) : why = .reservedField ∧ cnt ≠ 0 := by
  obtain rfl | rfl | rfl := hop
  · exact onlyCntZero_rejected h
  · cases bs with
    | nil => simp [decodeBody, decodeUpdate] at h
    | cons d bs => exact onlyCntZero_rejected h
  · exact onlyCntZero_rejected h

/-- A whole erroneous request is rejected, and the bytes after it are left (R42, R44, R85). -/
theorem decode_erroneous {op : Byte} {opnd : List Byte} (h : (Request.erroneous op opnd).Whole) (bs : List Byte) :
    ∃ why, decode (op :: (opnd ++ bs)) = .rejected why bs := by
  obtain ⟨hill | hres, hlen⟩ := h
  · obtain rfl := List.length_eq_zero_iff.mp (hlen.trans (operandLen_illegal hill))
    exact ⟨.illegalOp, decodeBody_illegal _ _ _ hill⟩
  · simp only [reservedOp, Bool.and_eq_true, bne_iff_ne] at hres
    obtain ⟨⟨hop, hne⟩, hcnt⟩ := hres
    exact ⟨.reservedField, decodeBody_reserved bs hop hlen hne hcnt⟩

/-- R44, with the op byte written from its fields: a reserved CNT is answered RESERVED_FIELD and the operand bytes are
consumed. -/
theorem step_reserved_count {s : State} {op cnt : Nat} {opnd bs : List Byte} (hop : legalOp op = true) (hne : op ≠ 4)
    (hlen : opnd.length = operandLen op) (hlo : 1 ≤ cnt) (hhi : cnt ≤ 15)
    (hin : s.input = (BitVec.ofNat 8 (16 * cnt + op) :: (opnd ++ bs)).map HostEvent.byte) :
    step s = .next ((s.setInput (bs.map HostEvent.byte)).raise .reservedField) := by
  have hop5 := ((legalOp_iff op).mp hop).2
  have hofield : opField (BitVec.ofNat 8 (16 * cnt + op)) = op := by
    rw [opField_eq_mod, BitVec.toNat_ofNat]
    omega
  have hcfield : cntField (BitVec.ofNat 8 (16 * cnt + op)) = cnt := by
    rw [cntField_eq_div, BitVec.toNat_ofNat]
    omega
  apply step_of_decode_rejected hin
  rw [decode_cons, hofield, hcfield]
  exact decodeBody_reserved bs hop hlen hne (by omega)

/-! ### Streams with other requests between their members -/

theorem hashed_cons (r : Request) (rs : List Request) : hashed (r :: rs) = hashed [r] ++ hashed rs := by
  cases r with
  | instr i => cases i <;> rfl
  | erroneous op opnd => rfl

/-- What a request writes to ACC is the hash of the bytes it carries for the stream, unless it begins a new one. -/
theorem accAfterRequest_eq_crcAccum {i : Instr} (hi : i ≠ .crcInit) (a : Half) :
    accAfterRequest i a = crcAccum a (hashed [.instr i]) := by
  cases i with
  | crcInit => exact absurd rfl hi
  | crcUpdate d => rfl
  | crcFinal => rfl
  | frameEncode cnt addr cmd args => rfl
  | frameDecode f => rfl

/-- What a whole request other than CRC_INIT, an erroneous one too, does to a stream: it is answered once, and ACC goes on
by the bytes it hashes (R17, R104). -/
theorem step_sent_of_ne_crcInit {s : State} {r : Request} {rs : List Request} (hw : r.Whole)
    (hr : r ≠ .instr .crcInit) (hread : s.accReadable = true) (hin : s.input = sent (r :: rs)) :
    ∃ t, step s = .next t ∧ t.accReadable = true ∧ t.input = sent rs ∧ t.acc = crcAccum s.acc (hashed [r]) ∧
      t.responses.length = s.responses.length + 1 := by
  cases r with
  | instr i =>
    obtain ⟨t, ht⟩ := exec_readable i (s := s.setInput (sent rs)) hread
    obtain ⟨-, hinput, resp, hresp⟩ := exec_next_frame ht
    have htread := exec_next_readable (s := s.setInput (sent rs)) hread ht
    refine ⟨t, (step_sent_instr hw hin).trans ht, htread, hinput, ?_, by simp [hresp]⟩
    rw [exec_acc ht, accAfterRequest_eq_crcAccum (by simpa using hr), State.setInput_acc]
  | erroneous op opnd =>
    obtain ⟨why, hdec⟩ := decode_erroneous hw (rs.flatMap Request.bytes)
    exact ⟨_, step_of_decode_rejected (hin.trans (sent_cons _ _)) hdec, hread, rfl, rfl, by simp⟩

/-- R64, R104: requests other than CRC_INIT, one after the other, hash the bytes of the CRC_UPDATEs among them. -/
theorem runSteps_sent_of_ne_crcInit {rs : List Request} (hrs : ∀ r ∈ rs, r.Whole ∧ r ≠ .instr .crcInit)
    (qs : List Request) {s : State} (hread : s.accReadable = true) (hin : s.input = sent (rs ++ qs)) :
    ∃ t, (∀ n, runSteps (rs.length + n) s = runSteps n t) ∧ t.accReadable = true ∧ t.input = sent qs ∧
      t.acc = crcAccum s.acc (hashed rs) ∧ t.responses.length = s.responses.length + rs.length := by
  induction rs generalizing s with
  | nil => exact ⟨s, by simp, hread, hin, rfl, rfl⟩
  | cons r rs ih =>
    obtain ⟨⟨hw, hne⟩, htail⟩ := List.forall_mem_cons.mp hrs
    obtain ⟨u, hstep, huread, huin, huacc, hulen⟩ := step_sent_of_ne_crcInit hw hne hread hin
    obtain ⟨t, hrun, htread, htin, htacc, htlen⟩ := ih htail huread huin
    refine ⟨t, fun n => ?_, htread, htin, ?_, ?_⟩
    · rw [List.length_cons, Nat.add_right_comm, runSteps_succ_next hstep, hrun]
    · rw [htacc, huacc, hashed_cons r rs, crcAccum_append]
    · rw [htlen, hulen, List.length_cons]
      omega

/-- CRC_INIT at the head begins a stream in any state (R61). -/
theorem step_sent_crcInit {s : State} {rs : List Request} (hin : s.input = sent (.instr .crcInit :: rs)) :
    ∃ t, step s = .next t ∧ t.accReadable = true ∧ t.input = sent rs ∧ t.acc = accInit ∧
      t.responses = s.responses ++ [okEmpty] :=
  ⟨_, (step_sent_instr rfl hin).trans (exec_crcInit _), by simp, rfl, rfl, rfl⟩

/-- CRC_UPDATEs and a CRC_FINAL, with requests after them: the CRC so far is returned and the stream goes on (R66). -/
theorem runSteps_updates_crcFinal_append (bs : List Byte) (rs : List Request) {s : State}
    (hread : s.accReadable = true) (hin : s.input = sent (updates bs ++ .instr .crcFinal :: rs)) :
    ∃ t, (∀ n, runSteps (bs.length + (n + 1)) s = runSteps n t) ∧ t.accReadable = true ∧ t.input = sent rs ∧
      t.acc = crcAccum s.acc bs ∧
      t.responses = s.responses ++ List.replicate bs.length okEmpty ++ [⟨.ok, le16 (~~~(crcAccum s.acc bs))⟩] :=
  ⟨_, fun n => (runSteps_updates bs _ (n + 1) hread hin).trans
    (runSteps_succ_next ((step_sent_instr rfl rfl).trans (exec_crcFinal _ hread))), hread, rfl, rfl, rfl⟩

/-! ### The checksum family's obligations -/

/-- Settles O21: after CRC_INIT the requests between hash what the CRC_UPDATEs among them carry, and CRC_FINAL returns its
complement. -/
theorem streamLaw : Obligations.StreamLaw := by
  intro s rs hrs hin
  obtain ⟨u, hinit, huread, huin, huacc, huresp⟩ := step_sent_crcInit hin
  obtain ⟨t, hrun, htread, htin, htacc, htlen⟩ := runSteps_sent_of_ne_crcInit hrs _ huread huin
  have hacc : t.acc = ~~~(crc16 (hashed rs)) := by rw [htacc, huacc, crcAccum_accInit]
  have hfinal := (step_sent_instr rfl htin).trans (exec_crcFinal _ htread)
  refine ⟨_, (runSteps_succ_next hinit).trans ((hrun 1).trans (runSteps_succ_next hfinal)), rfl, hacc, ?_, ?_⟩
  · simp only [State.respond_responses, State.setInput_responses, List.length_append, List.length_singleton,
      htlen, huresp]
    omega
  · simp [hacc]

/-- Settles O10: the byte-wide form keeps the data bits still to come XOR-ed into the accumulator, and after eight shifts
none is left. -/
theorem byteWideFormAgrees : Obligations.ByteWideFormAgrees := by
  intro a b
  simpa only [crcStepBit, Bool.xor_false] using crcStepByte_eq_foldl_shift a b

/-- Settles O23: each CRC_FINAL returns the CRC of all bytes since CRC_INIT, and hashing p and then q is hashing their
concatenation. -/
theorem prefixLaw : Obligations.PrefixLaw := by
  refine ⟨fun s p q hin => ?_, by decide +kernel, by decide +kernel, by decide +kernel⟩
  rw [List.append_assoc] at hin
  obtain ⟨u, hinit, huread, huin, huacc, huresp⟩ := step_sent_crcInit hin
  obtain ⟨v, hp, hvread, hvin, hvacc, hvresp⟩ := runSteps_updates_crcFinal_append p _ huread huin
  obtain ⟨t, hq, -, -, htacc, htresp⟩ := runSteps_updates_crcFinal_append q _ hvread hvin
  refine ⟨t, ?_, ?_, ?_⟩
  · calc runSteps (p.length + q.length + 3) s
      _ = runSteps (p.length + (q.length + 1 + 1) + 1) s := rfl
      _ = .next t := by rw [runSteps_succ_next hinit, hp, hq, runSteps_zero]
  · rw [htacc, hvacc, huacc, ← crcAccum_append, crcAccum_accInit]
  · simp [htresp, hvresp, huresp, hvacc, huacc, crc16, crcAccum_append]

/-- Settles O25: a step stops only in a request that reads ACC while it holds no value, and a CRC request is rejected only
for its CNT. -/
theorem onlyFaultIsUnwrittenAcc : Obligations.OnlyFaultIsUnwrittenAcc := by
  refine ⟨fun s f => ?_, step_ne_refused, fun i s t hi h => ?_, fun op bs rest why hop h => ?_⟩
  · rw [step_fault_iff, State.accReadable_eq_false_iff, and_assoc]
  · obtain rfl | rfl | ⟨d, rfl⟩ := hi
    · exact ⟨[], congrArg State.responses (next_inj h)⟩
    · exact ⟨_, congrArg State.responses (exec_crcFinal_next h).2⟩
    · exact ⟨[], congrArg State.responses (exec_crcUpdate_next h).2⟩
  · rw [← opField_eq_mod] at hop
    rw [← cntField_eq_div]
    exact decodeBody_crc_rejected hop h

/-- Settles O7: `crc16` is a left fold between two complements. -/
theorem crc16HashesInOrder : Obligations.Crc16HashesInOrder :=
  ⟨rfl, crc16_append_singleton⟩

/-- Settles O8: the bit positions 0 to 7 are taken in order. -/
theorem byteStepIsLsbFirst : Obligations.ByteStepIsLsbFirst :=
  fun _ _ => rfl

/-- Settles O9: a logical shift leaves bit 15 clear, and of the two branches only the XOR sets it. -/
theorem bitStepBits : Obligations.BitStepBits :=
  fun a d => ⟨crcStepBit_of_feedback, crcStepBit_of_no_feedback, ushiftRight_one_getLsbD_fifteen a,
    crcStepBit_getLsbD_fifteen a d, feedback_getLsbD⟩

/-- Settles O16: CRC_INIT is performed in every state, and what it writes does not depend on what stood there. -/
theorem crcInitRule : Obligations.CrcInitRule := by
  refine ⟨exec_crcInit, by decide, rfl, fun s cnt bs hlo hhi hin => ?_, fun s t u ht hu => ?_⟩
  · exact step_reserved_count (op := 1) (opnd := []) rfl (by decide) rfl hlo hhi hin
  · obtain rfl := next_inj ht
    obtain rfl := next_inj hu
    simp

/-- Settles O18: CRC_FINAL returns the complement of ACC and keeps ACC, so that a second one returns the same. -/
theorem crcFinalRule : Obligations.CrcFinalRule := by
  refine ⟨fun s h => exec_crcFinal s (s.accReadable_iff.mpr h),
    fun s hc hv => exec_crcFinal_unreadable s (s.accReadable_eq_false_iff.mpr ⟨hc, hv⟩), by decide,
    fun s cnt bs hlo hhi hin => step_reserved_count (op := 3) (opnd := []) rfl (by decide) rfl hlo hhi hin,
    fun s t u ht hu => ?_, fun s t u ht hu => ?_, fun s hin => ?_⟩
  · obtain ⟨-, rfl⟩ := exec_crcFinal_next ht
    obtain ⟨-, rfl⟩ := exec_crcFinal_next hu
    simp
  · obtain rfl := next_inj ht
    obtain ⟨-, rfl⟩ := exec_crcFinal_next hu
    have hzero : le16 (~~~accInit) = [0x00#8, 0x00#8] := by decide
    simp [hzero]
  · obtain ⟨t, hrun, hlast, hacc⟩ := runSteps_crcInit_updates_crcFinal _ hin
    refine ⟨t, hrun, hacc.trans (by decide +kernel), ?_⟩
    rw [hlast]
    decide +kernel

/-- Settles O22: CRC_INIT and CRC_FINAL are the stream of no bytes, and the two complements cancel. -/
theorem emptyStream : Obligations.EmptyStream := by
  refine ⟨crc16_nil, fun s hin => ?_⟩
  obtain ⟨t, hrun, hlast, -⟩ := runSteps_crcInit_updates_crcFinal [] hin
  refine ⟨t, hrun, ?_⟩
  rw [hlast, crc16_nil]
  rfl

end Sys2Proof.Machine
end

section
/-! PROOFS. The frame codec: the op byte of a request as a number, which argument bytes reach the outbound payload,
and what FRAME_ENCODE and FRAME_DECODE answer. -/

namespace Sys2Proof

/-- R40: CNT and OP are the op byte's two hexadecimal digits. -/
theorem opByte_eq_ofNat {cnt op : Nat} (hcnt : cnt < 16) (hop : op < 16) :
    opByte cnt op = BitVec.ofNat 8 (16 * cnt + op) := by
  have hval : (BitVec.ofNat 8 (16 * cnt + op)).toNat = 16 * cnt + op := by
    rw [BitVec.toNat_ofNat]
    omega
  have hc : cntField (BitVec.ofNat 8 (16 * cnt + op)) = cnt := by rw [cntField_eq_div, hval]; omega
  have ho : opField (BitVec.ofNat 8 (16 * cnt + op)) = op := by rw [opField_eq_mod, hval]; omega
  simpa only [hc, ho] using opByte_fields (BitVec.ofNat 8 (16 * cnt + op))

end Sys2Proof

namespace Sys2Proof.Machine

/-! ### The argument slots (R74, R75) -/

/-- R74: arguments beyond the sixth are not counted. -/
theorem effectiveCount_of_six_le {cnt : Nat} (h : 6 ≤ cnt) : effectiveCount cnt = 6 :=
  Nat.min_eq_right h

/-- A slot's operand byte is seen only where the slot is below the effective count. -/
theorem slotByte_congr {n k : Nat} {x y : Byte} (e : Bool) (h : k < n → x = y) :
    slotByte e n k x = slotByte e n k y := by
  by_cases hk : k < n
  · rw [h hk]
  · simp [slotByte, hk]

theorem slotByte_of_lt {n k : Nat} (e : Bool) (arg : Byte) (h : k < n) : slotByte e n k arg = arg :=
  if_pos h

/-- Six arguments fill the payload, which then has no terminator and no padding under either parameter. -/
theorem outboundPayload_six (e : Bool) (addr cmd : Byte) (a : Args) :
    outboundPayload e 6 addr cmd a = [addr, cmd, a.a0, a.a1, a.a2, a.a3, a.a4, a.a5] := by
  simp [outboundPayload, slotByte_of_lt]

/-! ### The frame family's obligations -/

/-- Settles O29: FRAME_ENCODE sees CNT only through the effective count and an argument byte only through its slot,
which shows it only below that count. -/
theorem argumentsBeyondTheCountAreIgnored : Obligations.ArgumentsBeyondTheCountAreIgnored := by
  refine ⟨fun cnt addr cmd a s h6 _ => ?_, fun cnt addr cmd a b s h0 h1 h2 h3 h4 h5 => ?_⟩
  · rw [exec_frameEncode, exec_frameEncode, effectiveCount_of_six_le h6, effectiveCount_of_six_le (Nat.le_refl 6)]
  · have hpayload : outboundPayload s.cfg.emptyArgsTerminator (effectiveCount cnt) addr cmd a =
        outboundPayload s.cfg.emptyArgsTerminator (effectiveCount cnt) addr cmd b := by
      simp only [outboundPayload, effectiveCount, slotByte_congr _ h0, slotByte_congr _ h1, slotByte_congr _ h2,
        slotByte_congr _ h3, slotByte_congr _ h4, slotByte_congr _ h5]
    rw [exec_frameEncode, exec_frameEncode, hpayload]

/-- Settles O28: the answer is the model's own, the op byte is 16 times CNT plus 4, and the example's payload is its six
arguments. -/
theorem frameEncodeRule : Obligations.FrameEncodeRule := by
  refine ⟨fun cnt addr cmd a0 a1 a2 a3 a4 a5 s _ => exec_frameEncode cnt addr cmd ⟨a0, a1, a2, a3, a4, a5⟩ s,
    fun cnt addr cmd a0 a1 a2 a3 a4 a5 hcnt => ?_, fun s => ⟨_, exec_frameEncode _ _ _ _ s, ?_⟩⟩
  · rw [encode, opByte_eq_ofNat (Nat.lt_succ_of_le hcnt) (by decide)]
  · have hcrc : le16 (crc16 [2#8, 56#8, 1#8, 2#8, 3#8, 4#8, 5#8, 6#8]) = [0x3B#8, 0xCF#8] := by decide +kernel
    rw [effectiveCount_of_six_le (Nat.le_refl 6), outboundPayload_six, hcrc, State.respond_responses,
      List.getLast?_concat]
    rfl

/-- Settles O31: FRAME_DECODE compares the two CRCs and returns both. -/
theorem frameDecodeRule : Obligations.FrameDecodeRule :=
  fun b0 b1 b2 b3 b4 b5 b6 b7 s => exec_frameDecode ⟨b0, b1, b2, b3, b4, b5, b6, b7⟩ s

end Sys2Proof.Machine
end

section
/-! PROOFS. Exceptions: a request answered with an error status leaves the block's state as it was. -/

namespace Sys2Proof.Machine

/-- A performed FRAME_DECODE writes the responses and nothing else, whatever status it answers (R85). -/
theorem exec_frameDecode_only_responds {f : InFrame} {s t : State} (h : exec (.frameDecode f) s = .next t) :
    t = { s with responses := t.responses } := by
  obtain rfl := next_inj ((exec_frameDecode f s).symm.trans h)
  rfl

/-- A whole erroneous request is answered with its error, and what is left to come is the bytes after it (R42, R44, R85). -/
theorem step_erroneous {s : State} {op : Byte} {opnd bs : List Byte} (hw : (Request.erroneous op opnd).Whole)
    (hin : s.input = (op :: (opnd ++ bs)).map HostEvent.byte) :
    ∃ why, step s = .next ((s.setInput (bs.map HostEvent.byte)).raise why) := by
  obtain ⟨why, hdec⟩ := decode_erroneous hw bs
  exact ⟨why, step_of_decode_rejected hin hdec⟩

/-- Settles O46: the step of an erroneous request raises its error at the state with the request's bytes taken in, and
`raise` writes only the responses; FRAME_DECODE writes only the responses under either status. -/
theorem errorsChangeNoState : Obligations.ErrorsChangeNoState := by
  refine ⟨fun s op opnd bs hw hin => ?_, fun f s t h _ => exec_frameDecode_only_responds h⟩
  obtain ⟨why, hstep⟩ := step_erroneous hw hin
  exact ⟨_, why, hstep, rfl, rfl, rfl, rfl, rfl, rfl⟩

end Sys2Proof.Machine
end

section
/-! PROOFS. The round trip between requests and bytes: what was read as a request, legal or erroneous, is that request's
bytes followed by those still to come. -/

namespace Sys2Proof

/-! ### What was read as a request -/

theorem onlyCntZero_request {cnt : Nat} {i j : Instr} {bs rest : List Byte}
    (h : onlyCntZero cnt j bs = .request i rest) : cnt = 0 ∧ i = j ∧ rest = bs := by
  unfold onlyCntZero at h
  split at h
  · next hcnt =>
    cases h
    exact ⟨hcnt, rfl, rfl⟩
  · simp at h

/-- A request read after an op byte is the one that op byte and its operands encode (R46). -/
theorem decodeBody_request {op cnt : Nat} {i : Instr} {bs rest : List Byte} (hcnt : cnt ≤ 15)
    (h : decodeBody op cnt bs = .request i rest) :
    i.wellFormed = true ∧ opByte cnt op :: bs = encode i ++ rest := by
  unfold decodeBody at h
  split at h
  · obtain ⟨rfl, rfl, rfl⟩ := onlyCntZero_request h
    exact ⟨rfl, rfl⟩
  · unfold decodeUpdate at h
    split at h
    · obtain ⟨rfl, rfl, rfl⟩ := onlyCntZero_request h
      exact ⟨rfl, rfl⟩
    · simp at h
  · obtain ⟨rfl, rfl, rfl⟩ := onlyCntZero_request h
    exact ⟨rfl, rfl⟩
  · unfold decodeFrameEncode at h
    split at h
    · cases h
      exact ⟨decide_eq_true hcnt, rfl⟩
    · simp at h
  · unfold decodeFrameDecode at h
    split at h
    · obtain ⟨rfl, rfl, rfl⟩ := onlyCntZero_request h
      exact ⟨rfl, rfl⟩
    · simp at h
  · simp at h

theorem decode_request {i : Instr} {bs rest : List Byte} (h : decode bs = .request i rest) :
    i.wellFormed = true ∧ bs = encode i ++ rest := by
  cases bs with
  | nil => simp at h
  | cons op bs => simpa using decodeBody_request (Nat.le_of_lt_succ (cntField_lt op)) h

/-- R39: an encoding is an op byte and as many operand bytes as its OP has. -/
theorem exists_encode_eq_cons (i : Instr) :
    ∃ op opnd, encode i = op :: opnd ∧ opnd.length = operandLen (opField op) := by
  cases i <;> exact ⟨_, _, rfl, by simp [operandLen]⟩

/-! ### What was read as an erroneous request -/

/-- Everything a rejected request can be: an illegal OP without operand bytes (R42), or a legal one other than FRAME_ENCODE
with a CNT that is not 0 and its operand bytes (R44). -/
theorem decodeBody_rejected {op cnt : Nat} {why : Reject} {bs rest : List Byte}
    (h : decodeBody op cnt bs = .rejected why rest) :
    (legalOp op = false ∧ why = .illegalOp ∧ bs = rest) ∨
    (legalOp op = true ∧ op ≠ 4 ∧ cnt ≠ 0 ∧ why = .reservedField ∧
      ∃ opnd, opnd.length = operandLen op ∧ bs = opnd ++ rest) := by
  cases hop : legalOp op with
  | false =>
    cases (decodeBody_illegal op cnt bs hop).symm.trans h
    exact .inl ⟨rfl, rfl, rfl⟩
  | true =>
    obtain hshort | hlen := Nat.lt_or_ge bs.length (operandLen op)
    · simp [decodeBody_short cnt hshort] at h
    · have htake := List.length_take_of_le hlen
      have hsplit := (List.take_append_drop (operandLen op) bs).symm
      obtain ⟨i, -, hdec⟩ := decodeBody_operands cnt (bs.drop (operandLen op)) hop htake
      rw [← hsplit, h] at hdec
      split at hdec
      · simp at hdec
      · next hne =>
        obtain ⟨rfl, hcnt⟩ := Machine.onlyCntZero_rejected hdec.symm
        cases hdec.trans (onlyCntZero_of_ne cnt i _ hcnt)
        exact .inr ⟨rfl, hne, hcnt, rfl, _, htake, hsplit⟩

end Sys2Proof

namespace Sys2Proof.Machine

/-- R42, R44: the error that an erroneous request with the given op byte is answered with. -/
def rejectOf (op : Byte) : Reject := if legalOp (opField op) = true then .reservedField else .illegalOp

/-- A request that was rejected is a whole erroneous one, and its op byte names the error. -/
theorem decode_rejected {why : Reject} {bs rest : List Byte} (h : decode bs = .rejected why rest) :
    ∃ op opnd, (Request.erroneous op opnd).Whole ∧ why = rejectOf op ∧ bs = op :: (opnd ++ rest) := by
  cases bs with
  | nil => simp at h
  | cons op bs =>
    obtain ⟨hill, rfl, rfl⟩ | ⟨hop, hne, hcnt, rfl, opnd, hlen, rfl⟩ := decodeBody_rejected h
    · exact ⟨op, [], ⟨.inl hill, (operandLen_illegal hill).symm⟩, by simp [rejectOf, hill], rfl⟩
    · exact ⟨op, opnd, ⟨.inr (by simp [reservedOp, hop, hne, hcnt]), hlen⟩, by simp [rejectOf, hop], rfl⟩

/-- A whole erroneous request is read back, whatever bytes follow it. -/
theorem decode_erroneous_append {op : Byte} {opnd : List Byte} (h : (Request.erroneous op opnd).Whole)
    (bs : List Byte) : decode (op :: (opnd ++ bs)) = .rejected (rejectOf op) bs := by
  obtain ⟨why, hdec⟩ := decode_erroneous h bs
  obtain ⟨op', opnd', -, rfl, heq⟩ := decode_rejected hdec
  rwa [← (List.cons.inj heq).1] at hdec

/-! ### The obligations about the round trip -/

/-- Settles O37: an encoding names its operation and holds its operand bytes. -/
theorem decodeEncode : Obligations.DecodeEncode :=
  fun _ rest h => decode_encode_append h rest

/-- Settles O38: each operation is read from one OP with one operand layout. -/
theorem encodeDecode : Obligations.EncodeDecode :=
  fun _ _ _ => decode_request

/-- Settles O40: the decoder runs on the five words. -/
theorem encodedWords : Obligations.EncodedWords := by
  refine ⟨?_, ?_, ?_, ?_, ?_⟩ <;> rfl

end Sys2Proof.Machine
end

section
/-! PROOFS. What every request and every step keep: the parameters, the frame of a performed request, and the state
invariant along every run of the block. -/

namespace Sys2Proof.Machine

/-! ### Performed requests -/

/-- What `exec_next_frame` leaves open: no request resets the block, and only CRC_INIT writes acc_valid (R18, R61). -/
theorem exec_next_keeps {i : Instr} {s t : State} (h : exec i s = .next t) :
    t.resets = s.resets ∧ (i ≠ .crcInit → t.accValid = s.accValid) := by
  obtain ⟨rfl, rfl⟩ | ⟨d, rfl, -, rfl⟩ | ⟨rfl, -, rfl⟩ | ⟨cnt, addr, cmd, args, rfl, rfl⟩ | ⟨f, rfl, rfl⟩ :=
    exec_next_cases h
  case inl => exact ⟨rfl, fun hne => absurd rfl hne⟩
  all_goals exact ⟨rfl, fun _ => rfl⟩

/-- Settles O20: the frame of a performed request, by cases on the request. -/
theorem performedRequestFrame : Obligations.PerformedRequestFrame := by
  intro i s t h
  obtain ⟨hcfg, hinput, hresp⟩ := exec_next_frame h
  obtain ⟨hresets, hvalid⟩ := exec_next_keeps h
  exact ⟨hresp, hcfg, hinput, hresets, hvalid⟩

/-! ### The shape of a response (R48) -/

theorem le16_length (a : Half) : (le16 a).length = 2 := rfl

theorem outboundPayload_length (e : Bool) (n : Nat) (addr cmd : Byte) (a : Args) :
    (outboundPayload e n addr cmd a).length = 8 := rfl

theorem inboundPayload_length (f : InFrame) : (inboundPayload f).length = 6 := rfl

theorem shaped_okEmpty : okEmpty.Shaped := .inl rfl

theorem shaped_half (a : Half) : (Response.mk .ok (le16 a)).Shaped := .inr (.inl (le16_length a))

/-- An outbound frame carries the CRC of its payload (R69). -/
theorem shaped_outbound {p : List Byte} (hp : p.length = 8) : (Response.mk .ok (p ++ le16 (crc16 p))).Shaped :=
  .inr (.inr (.inl ⟨p, hp, rfl⟩))

/-- A checked inbound frame is accepted with two equal CRCs or refused with two that differ (R80). -/
theorem shaped_inbound {p : List Byte} (hp : p.length = 6) (rx : Half) :
    (Response.mk (frameStatus (crc16 p) rx) (p ++ le16 rx ++ le16 (crc16 p))).Shaped := by
  by_cases hrx : crc16 p = rx
  · subst hrx
    rw [frameStatus, if_pos rfl]
    exact .inr (.inr (.inr ⟨p, hp, rfl⟩))
  · rw [frameStatus, if_neg hrx]
    exact ⟨p, rx, hp, hrx, rfl⟩

theorem shaped_reject (why : Reject) : (Response.mk (rejectStatus why) []).Shaped := by
  cases why <;> rfl

/-! ### The invariant -/

/-- A response of a right shape keeps the invariant. -/
theorem State.Inv.respond {s : State} {st : Status} {data : List Byte} (h : s.Inv)
    (hshape : (Response.mk st data).Shaped) : (s.respond st data).Inv := by
  obtain ⟨hvalid, hresp⟩ := h
  refine ⟨hvalid, fun r hr => ?_⟩
  obtain hr | rfl := List.mem_append.mp hr |>.imp_right List.mem_singleton.mp
  · exact hresp r hr
  · exact hshape

theorem State.Inv.setInput {s : State} (h : s.Inv) (es : List HostEvent) : (s.setInput es).Inv := h

theorem State.Inv.setAcc {s : State} (h : s.Inv) (a : Half) : (s.setAcc a).Inv := h

/-- CRC_INIT sets acc_valid only where it exists (R61). -/
theorem State.Inv.markAccWritten {s : State} (h : s.Inv) : s.markAccWritten.Inv := by
  obtain ⟨hvalid, hresp⟩ := h
  refine ⟨fun hmark => ?_, hresp⟩
  obtain hv | hk := by simpa using hmark
  · exact hvalid hv
  · exact hk

theorem State.Inv.applyReset {s : State} (h : s.Inv) (rest : List HostEvent) : (s.applyReset rest).Inv :=
  ⟨by simp, h.2⟩

theorem State.Inv.exec {i : Instr} {s t : State} (h : s.Inv) (hexec : exec i s = .next t) : t.Inv := by
  obtain ⟨rfl, rfl⟩ | ⟨d, rfl, -, rfl⟩ | ⟨rfl, -, rfl⟩ | ⟨cnt, addr, cmd, args, rfl, rfl⟩ | ⟨f, rfl, rfl⟩ :=
    exec_next_cases hexec
  · exact (h.setAcc accInit).markAccWritten.respond shaped_okEmpty
  · exact (h.setAcc _).respond shaped_okEmpty
  · exact h.respond (shaped_half _)
  · exact h.respond (shaped_outbound (outboundPayload_length _ _ _ _ _))
  · exact h.respond (shaped_inbound (inboundPayload_length f) _)

theorem State.Inv.step {s t : State} (h : s.Inv) (hstep : step s = .next t) : t.Inv := by
  obtain ⟨i, rest, -, hexec⟩ | ⟨why, rest, -, rfl⟩ | ⟨rest, -, rfl⟩ | ⟨-, rfl⟩ := step_next_cases hstep
  · exact (h.setInput rest).exec hexec
  · exact (h.setInput rest).respond (shaped_reject why)
  · exact h.applyReset rest
  · exact h

theorem State.inv_resetWith (c : Config) : (State.resetWith c).Inv :=
  ⟨by simp, by simp⟩

/-! ### Every reachable state -/

theorem step_cfg {s t : State} (h : step s = .next t) : t.cfg = s.cfg := by
  obtain ⟨i, rest, -, hexec⟩ | ⟨why, rest, -, rfl⟩ | ⟨rest, -, rfl⟩ | ⟨-, rfl⟩ := step_next_cases h
  case inl => exact (exec_next_frame hexec).1
  all_goals rfl

/-- Where ACC holds a value the block does not stop. -/
theorem step_readable {s : State} (h : s.accReadable = true) : ∃ t, step s = .next t := by
  obtain ⟨t, ht, -⟩ | ⟨i, rest, -, hstep⟩ := step_next_or_exec s
  · exact ⟨t, ht⟩
  · rw [hstep]
    exact exec_readable i h

theorem Reachable.inv {c : Config} {s : State} (h : Reachable c s) : s.Inv := by
  induction h with
  | reset => exact State.inv_resetWith c
  | host es _ ih => exact ih.setInput _
  | step _ hstep ih => exact ih.step hstep

theorem Reachable.cfg_eq {c : Config} {s : State} (h : Reachable c s) : s.cfg = c := by
  induction h with
  | reset => rfl
  | host es _ ih => exact ih
  | step _ hstep ih => exact (step_cfg hstep).trans ih

/-! ### The obligations about the invariant -/

/-- Settles O52: each request adds a response of its own shape, and a reset adds none and clears acc_valid. -/
theorem stepKeepsInvariant : Obligations.StepKeepsInvariant :=
  fun _ _ h hstep => h.step hstep

/-- Settles O51: reset leaves acc_valid clear and no responses. -/
theorem resetMeetsInvariant : Obligations.ResetMeetsInvariant :=
  ⟨State.inv_resetWith defaultConfig, State.inv_resetWith⟩

/-- Settles O53: the invariant and the parameters hold at reset and along every step, and under
`ACC_RESET_KNOWN = true` ACC holds a value in every state. -/
theorem reachableStatesAreSafe : Obligations.ReachableStatesAreSafe :=
  fun _ s h => ⟨h.inv, h.cfg_eq, fun hk =>
    step_readable (s.accReadable_iff.mpr (.inl ((congrArg Config.accResetKnown h.cfg_eq).trans hk)))⟩

end Sys2Proof.Machine
end

section
/-! PROOFS. What the block takes in: the request or the reset at the head of the host's events, in both directions, and
what a reset, a partly sent request and later bytes do to a step. -/

namespace Sys2Proof.Machine

/-! ### The events before and after the first reset -/

theorem leadingBytes_map_append_reset (bs : List Byte) {e : HostEvent} (he : e = .reset ∨ e = .resetInFlight)
    (rest : List HostEvent) : leadingBytes (bs.map HostEvent.byte ++ e :: rest) = bs := by
  obtain rfl | rfl := he <;> simp [leadingBytes]

theorem afterBytes_map_append_reset (bs : List Byte) {e : HostEvent} (he : e = .reset ∨ e = .resetInFlight)
    (rest : List HostEvent) : afterBytes (bs.map HostEvent.byte ++ e :: rest) = e :: rest := by
  obtain rfl | rfl := he <;> simp [afterBytes]

/-- What follows the leading bytes begins with a reset. -/
theorem afterBytes_cons {es rest : List HostEvent} {e : HostEvent} (h : afterBytes es = e :: rest) :
    e = .reset ∨ e = .resetInFlight := by
  induction es with
  | nil => cases h
  | cons x es ih =>
    cases x with
    | byte b => exact ih h
    | reset => cases h; exact .inl rfl
    | resetInFlight => cases h; exact .inr rfl

theorem abortedBy_eq_some_iff (bs : List Byte) (tail rest : List HostEvent) :
    abortedBy bs tail = some rest ↔ bs = [] ∧ tail = .resetInFlight :: rest := by
  unfold abortedBy
  split <;> simp_all

/-- What aborts a whole request is a reset in flight right after its last byte (R98). -/
theorem abortedBy_eq_none_iff (bs : List Byte) (tail : List HostEvent) :
    abortedBy bs tail = none ↔ (bs.map HostEvent.byte ++ tail).head? ≠ some .resetInFlight := by
  cases bs with
  | cons b bs => simp
  | nil =>
    cases tail with
    | nil => simp
    | cons e tail => cases e <;> simp [abortedBy]

/-! ### What stands at the head of the events -/

/-- What the block takes in, read off the host's events: a whole request that no reset aborts, a reset with the request
it discards or aborts, or nothing (R46, R98, R106). -/
inductive Takes (es : List HostEvent) : Fetched → Prop
  | request {i : Instr} {rest : List HostEvent} (hi : i.wellFormed = true)
      (hes : es = (encode i).map HostEvent.byte ++ rest) (hrest : rest.head? ≠ some .resetInFlight) :
      Takes es (.request i rest)
  | rejected {op : Byte} {opnd : List Byte} {rest : List HostEvent} (hw : (Request.erroneous op opnd).Whole)
      (hes : es = (op :: opnd).map HostEvent.byte ++ rest) (hrest : rest.head? ≠ some .resetInFlight) :
      Takes es (.rejected (rejectOf op) rest)
  | discarded {bs : List Byte} {e : HostEvent} {rest : List HostEvent} (hdec : decode bs = .incomplete)
      (he : e = .reset ∨ e = .resetInFlight) (hes : es = bs.map HostEvent.byte ++ e :: rest) :
      Takes es (.reset rest)
  | aborted {r : Request} {rest : List HostEvent} (hw : r.Whole)
      (hes : es = r.bytes.map HostEvent.byte ++ .resetInFlight :: rest) : Takes es (.reset rest)
  | waiting {bs : List Byte} (hdec : decode bs = .incomplete) (hes : es = bs.map HostEvent.byte) : Takes es .hold

theorem Takes.fetch_eq {es : List HostEvent} {f : Fetched} (h : Takes es f) : fetch es = f := by
  cases h with
  | @request i rest hi hes hrest =>
    subst hes
    rw [fetch_request (i := i) (bs := leadingBytes rest), afterBytes_map_append, leadingBytes_afterBytes]
    · rw [leadingBytes_map_append, decode_encode_append hi]
    · rwa [afterBytes_map_append, abortedBy_eq_none_iff, leadingBytes_afterBytes]
  | @rejected op opnd rest hw hes hrest =>
    subst hes
    rw [fetch_rejected (why := rejectOf op) (bs := leadingBytes rest), afterBytes_map_append, leadingBytes_afterBytes]
    · rw [leadingBytes_map_append, List.cons_append, decode_erroneous_append hw]
    · rwa [afterBytes_map_append, abortedBy_eq_none_iff, leadingBytes_afterBytes]
  | discarded hdec he hes =>
    subst hes
    exact fetch_incomplete_reset (by rwa [leadingBytes_map_append_reset _ he]) (afterBytes_map_append_reset _ he _)
  | @aborted r rest hw hes =>
    subst hes
    have hlead := leadingBytes_map_append_reset r.bytes (.inr rfl) rest
    have hafter := afterBytes_map_append_reset r.bytes (.inr rfl) rest
    cases r with
    | instr i =>
      have hdec : decode (encode i) = .request i [] := by simpa using decode_encode_append hw []
      exact fetch_request_aborted ((congrArg decode hlead).trans hdec) hafter
    | erroneous op opnd =>
      have hdec : decode (op :: opnd) = .rejected (rejectOf op) [] := by simpa using decode_erroneous_append hw []
      exact fetch_rejected_aborted ((congrArg decode hlead).trans hdec) hafter
  | waiting hdec hes =>
    subst hes
    rw [fetch_map, hdec]

theorem takes_fetch (es : List HostEvent) : Takes es (fetch es) := by
  have hes := (leadingBytes_afterBytes es).symm
  cases hdec : decode (leadingBytes es) with
  | request i bs =>
    obtain ⟨hi, hlead⟩ := decode_request hdec
    cases hab : abortedBy bs (afterBytes es) with
    | none =>
      rw [fetch_request hdec hab]
      exact .request hi (by simpa [hlead] using hes) ((abortedBy_eq_none_iff _ _).mp hab)
    | some rest =>
      obtain ⟨rfl, hafter⟩ := (abortedBy_eq_some_iff _ _ _).mp hab
      rw [fetch_request_aborted hdec hafter]
      exact .aborted (r := .instr i) hi (by simpa [hlead, hafter, Request.bytes] using hes)
  | rejected why bs =>
    obtain ⟨op, opnd, hw, rfl, hlead⟩ := decode_rejected hdec
    cases hab : abortedBy bs (afterBytes es) with
    | none =>
      rw [fetch_rejected hdec hab]
      exact .rejected hw (by simpa [hlead] using hes) ((abortedBy_eq_none_iff _ _).mp hab)
    | some rest =>
      obtain ⟨rfl, hafter⟩ := (abortedBy_eq_some_iff _ _ _).mp hab
      rw [fetch_rejected_aborted hdec hafter]
      exact .aborted (r := .erroneous op opnd) hw (by simpa [hlead, hafter, Request.bytes] using hes)
  | incomplete =>
    cases hafter : afterBytes es with
    | nil =>
      have hbytes : es = (leadingBytes es).map HostEvent.byte := by simpa [hafter] using hes
      rw [show fetch es = .hold by rw [hbytes, fetch_map, hdec]]
      exact .waiting hdec hbytes
    | cons e rest =>
      rw [fetch_incomplete_reset hdec hafter]
      exact .discarded hdec (afterBytes_cons hafter) (hafter ▸ hes)

theorem takes_iff_fetch_eq {es : List HostEvent} {f : Fetched} : Takes es f ↔ fetch es = f :=
  ⟨Takes.fetch_eq, fun h => h ▸ takes_fetch es⟩

/-! ### Steps by what stands at the head -/

/-- A whole well-formed request that no reset aborts is performed at the state that remains. -/
theorem step_encode_append {s : State} {i : Instr} {rest : List HostEvent} (hi : i.wellFormed = true)
    (hin : s.input = (encode i).map HostEvent.byte ++ rest) (hrest : rest.head? ≠ some .resetInFlight) :
    step s = exec i (s.setInput rest) :=
  step_request (Takes.request hi hin hrest).fetch_eq

/-- A request that is not whole has no decoding (R46, R106). -/
theorem decode_partial {op : Byte} {opnd : List Byte} (h : opnd.length < operandLen (opField op)) :
    decode (op :: opnd) = .incomplete :=
  decodeBody_short _ h

/-- A reset discards a request that is partly sent. -/
theorem step_partial_reset {s : State} {op : Byte} {opnd : List Byte} {e : HostEvent} {rest : List HostEvent}
    (hlen : opnd.length < operandLen (opField op)) (he : e = .reset ∨ e = .resetInFlight)
    (hin : s.input = (op :: opnd).map HostEvent.byte ++ e :: rest) : step s = .next (s.applyReset rest) :=
  step_reset (Takes.discarded (decode_partial hlen) he hin).fetch_eq

/-- A reset with no request before it acts at once. -/
theorem step_reset_at_once {s : State} {e : HostEvent} {rest : List HostEvent} (he : e = .reset ∨ e = .resetInFlight)
    (hin : s.input = e :: rest) : step s = .next (s.applyReset rest) :=
  step_reset (Takes.discarded decode_nil he hin).fetch_eq

/-- A reset in flight aborts the whole request before it. -/
theorem step_whole_aborted {s : State} {r : Request} {rest : List HostEvent} (hw : r.Whole)
    (hin : s.input = r.bytes.map HostEvent.byte ++ .resetInFlight :: rest) : step s = .next (s.applyReset rest) :=
  step_reset (Takes.aborted hw hin).fetch_eq

/-- A reset, and then the next request at the block it leaves. -/
theorem runSteps_reset_then_request {s : State} {i : Instr} (hi : i.wellFormed = true)
    (h : step s = .next (s.applyReset ((encode i).map HostEvent.byte))) : runSteps 2 s = exec i (s.applyReset []) := by
  have hexec : step (s.applyReset ((encode i).map HostEvent.byte)) = exec i (s.applyReset []) :=
    step_encode_append hi (rest := []) (by simp) (by simp)
  rw [runSteps_succ_next h]
  cases ht : exec i (s.applyReset []) with
  | next t => rw [runSteps_succ_next (hexec.trans ht), runSteps_zero]
  | fault f => rw [runSteps_succ_fault (hexec.trans ht)]
  | refused r => exact absurd ht (exec_ne_refused _ _ _)

theorem runSteps_waiting {s : State} (h : s.Waiting) (n : Nat) : runSteps n s = .next s := by
  induction n with
  | zero => rfl
  | succ n ih => rw [runSteps_succ_next (step_hold h), ih]

/-! ### What a request does not read -/

/-- A request reads neither the events after its own bytes nor the responses before its own (R15, R34). -/
theorem exec_next_with_input_responses {i : Instr} {s t : State} (h : exec i s = .next t) :
    ∃ r, t.responses = s.responses ++ [r] ∧ ∀ es rs,
      exec i { s with input := es, responses := rs } = .next { t with input := es, responses := rs ++ [r] } := by
  obtain ⟨rfl, rfl⟩ | ⟨d, rfl, hr, rfl⟩ | ⟨rfl, hr, rfl⟩ | ⟨cnt, addr, cmd, args, rfl, rfl⟩ | ⟨f, rfl, rfl⟩ :=
    exec_next_cases h
  · exact ⟨_, rfl, fun es rs => rfl⟩
  · exact ⟨_, rfl, fun es rs => exec_crcUpdate d { s with input := es, responses := rs } hr⟩
  · exact ⟨_, rfl, fun es rs => exec_crcFinal { s with input := es, responses := rs } hr⟩
  · exact ⟨_, rfl, fun es rs => rfl⟩
  · exact ⟨_, rfl, fun es rs => rfl⟩

/-- What the host sends later is still to come after the request. -/
theorem exec_send {i : Instr} {s t : State} (h : exec i s = .next t) (bs : List Byte) :
    exec i (s.send bs) = .next (t.send bs) := by
  obtain ⟨-, hinput, -⟩ := exec_next_frame h
  obtain ⟨r, hresp, hexec⟩ := exec_next_with_input_responses h
  rw [State.send, State.send, hinput, hexec, ← hresp]

/-! ### Bytes sent later -/

/-- The same to take in, with further bytes after it. -/
def Fetched.thenBytes (bs : List Byte) : Fetched → Fetched
  | .request i rest => .request i (rest ++ bs.map HostEvent.byte)
  | .rejected why rest => .rejected why (rest ++ bs.map HostEvent.byte)
  | .reset rest => .reset (rest ++ bs.map HostEvent.byte)
  | .hold => .hold

/-- Bytes are no reset in flight. -/
theorem head?_append_bytes {rest : List HostEvent} (h : rest.head? ≠ some .resetInFlight) (bs : List Byte) :
    (rest ++ bs.map HostEvent.byte).head? ≠ some .resetInFlight := by
  cases rest with
  | nil => cases bs <;> simp
  | cons e rest => exact h

/-- Later bytes change nothing in what the block takes in, once there is something to take in. -/
theorem fetch_append_bytes {es : List HostEvent} (h : fetch es ≠ .hold) (bs : List Byte) :
    fetch (es ++ bs.map HostEvent.byte) = (fetch es).thenBytes bs := by
  apply Takes.fetch_eq
  generalize hf : fetch es = f at h
  cases takes_iff_fetch_eq.mpr hf with
  | request hi hes hrest =>
    exact .request hi (by rw [hes, List.append_assoc]) (head?_append_bytes hrest bs)
  | rejected hw hes hrest =>
    exact .rejected hw (by rw [hes, List.append_assoc]) (head?_append_bytes hrest bs)
  | discarded hdec he hes => exact .discarded hdec he (by rw [hes, List.append_assoc, List.cons_append])
  | aborted hw hes => exact .aborted hw (by rw [hes, List.append_assoc, List.cons_append])
  | waiting hdec hes => exact absurd rfl h

theorem step_send_next {s t : State} (hw : ¬ s.Waiting) (h : step s = .next t) (bs : List Byte) :
    step (s.send bs) = .next (t.send bs) := by
  have hfetch := fetch_append_bytes hw bs
  obtain ⟨i, rest, hf, hexec⟩ | ⟨why, rest, hf, rfl⟩ | ⟨rest, hf, rfl⟩ | ⟨hf, -⟩ := step_next_cases h
  · rw [hf] at hfetch
    exact (step_request hfetch).trans (exec_send hexec bs)
  · rw [hf] at hfetch
    exact step_rejected hfetch
  · rw [hf] at hfetch
    exact step_reset hfetch
  · exact absurd hf hw

theorem step_send_fault {s : State} {f : Fault} (hw : ¬ s.Waiting) (h : step s = .fault f) (bs : List Byte) :
    step (s.send bs) = .fault f := by
  obtain ⟨hfault, hr, i, rest, hf, hi⟩ := (step_fault_iff s f).mp h
  have hfetch := fetch_append_bytes hw bs
  rw [hf] at hfetch
  exact (step_fault_iff _ f).mpr ⟨hfault, hr, i, _, hfetch, hi⟩

/-! ### The obligations about what the block takes in -/

/-- Settles O47: what the decoder reads from the bytes sent is what the step performs. -/
theorem stepRunsTheDecodedRequest : Obligations.StepRunsTheDecodedRequest := by
  refine ⟨fun s i bs rest hdec hin => ?_, fun s i rest hi hin hrest => step_encode_append hi hin hrest⟩
  apply step_request
  rw [hin, fetch_map, hdec]

/-- Settles O4: right after reset the bytes are read from an op byte on, and a frame request is performed in every state. -/
theorem readyAtOnceAfterReset : Obligations.ReadyAtOnceAfterReset := by
  intro c bs
  have hperform : ∀ i rest, decode bs = .request i rest →
      step ((State.resetWith c).setInput (bs.map HostEvent.byte)) =
        exec i ((State.resetWith c).setInput (rest.map HostEvent.byte)) :=
    fun i rest hdec => stepRunsTheDecodedRequest.1 _ i bs rest hdec rfl
  refine ⟨hperform, fun why rest hdec => step_of_decode_rejected rfl hdec, fun cnt addr cmd a rest hdec => ?_,
    fun f rest hdec => ?_⟩
  · exact ⟨_, (hperform _ _ hdec).trans (exec_frameEncode cnt addr cmd a _), rfl⟩
  · exact ⟨_, (hperform _ _ hdec).trans (exec_frameDecode f _), rfl⟩

/-- Settles O5: a reset keeps the responses, discards what is not whole or is in flight, and lands after the answer of
what is whole; no request is a reset. -/
theorem resetAbortsRequestInProgress : Obligations.ResetAbortsRequestInProgress := by
  refine ⟨fun s rest => ⟨rfl, rfl, rfl, rfl, accAfterReset_known s.cfg _⟩,
    fun s op opnd e rest hlen he hin => step_partial_reset hlen he hin,
    fun s e rest he hin => step_reset_at_once he hin, fun s r rest hw hin => step_whole_aborted hw hin,
    fun s i rest hi hin => step_encode_append hi hin (by simp), fun s op opnd rest hw hin => ?_,
    fun s t h => ?_, fun i s t h => (exec_next_keeps h).1⟩
  · rw [step_rejected (Takes.rejected hw hin (by simp)).fetch_eq]
    cases hop : legalOp (opField op) <;> simp [State.raise, State.respond, State.setInput, rejectOf, rejectStatus, hop]
  · obtain rfl := next_inj h
    rfl

/-- Settles O6: the reset leaves the next request's bytes alone, and they are performed at the block as reset left it. -/
theorem nextResponseAfterResetIsTheNextRequests : Obligations.NextResponseAfterResetIsTheNextRequests :=
  ⟨fun _ _ _ _ _ hlen he hi hin => runSteps_reset_then_request hi (step_partial_reset hlen he hin),
    fun _ _ _ hw hi hin => runSteps_reset_then_request hi (step_whole_aborted hw hin),
    fun _ _ _ he hi hin => runSteps_reset_then_request hi (step_reset_at_once he hin)⟩

/-- Settles O48: what is partly sent is no request yet, so the block waits until the bytes sent are one. -/
theorem partialRequestHolds : Obligations.PartialRequestHolds := by
  refine ⟨fun s op opnd hlen hin => ?_, fun s i p q hi hpq hin => ?_, fun s op opnd rest hlen hin => ?_⟩
  · exact runSteps_waiting (Takes.waiting (decode_partial hlen) hin).fetch_eq
  · have hwhole : (s.send q).input = (encode i).map HostEvent.byte ++ [] := by simp [hin, hpq]
    exact step_encode_append hi hwhole (by simp)
  · exact ⟨_, step_partial_reset hlen (.inl rfl) hin, rfl, rfl⟩

/-- Settles O49: what the step takes in is one whole request, or a reset with what it discards, or nothing. -/
theorem oneRequestOneResponse : Obligations.OneRequestOneResponse := by
  intro s t h
  obtain ⟨i, rest, hf, hexec⟩ | ⟨why, rest, hf, rfl⟩ | ⟨rest, hf, rfl⟩ | ⟨hf, rfl⟩ := step_next_cases h
  · cases takes_iff_fetch_eq.mpr hf with
    | request hi hes hrest =>
      obtain ⟨op, opnd, henc, hlen⟩ := exists_encode_eq_cons i
      obtain ⟨-, hinput, r, hresp⟩ := exec_next_frame hexec
      exact .inl ⟨op, opnd, r, hlen, by rw [hes, henc, hinput, State.setInput_input], hresp, (exec_next_keeps hexec).1⟩
  · cases takes_iff_fetch_eq.mpr hf with
    | rejected hw hes hrest => exact .inl ⟨_, _, _, hw.2, hes, rfl, rfl⟩
  · refine .inr (.inl ⟨rfl, rfl, ?_⟩)
    cases takes_iff_fetch_eq.mpr hf with
    | discarded hdec he hes =>
      simp only [hes, State.applyReset_input, List.length_append, List.length_cons]
      omega
    | aborted hw hes =>
      simp only [hes, State.applyReset_input, List.length_append, List.length_cons]
      omega
  · exact .inr (.inr ⟨hf, rfl⟩)

/-- Settles O50: later bytes stand after all that the step takes in, and no request reads them. -/
theorem laterBytesDoNotMatter : Obligations.LaterBytesDoNotMatter :=
  fun _ bs hw => ⟨fun _ h => step_send_next hw h bs, fun _ h => step_send_fault hw h bs⟩

end Sys2Proof.Machine
end

section
/-! PROOFS. Requests against each other: what one performed request leaves for the next, what an unwritten ACC shows, and
what the two values of `ACC_RESET_KNOWN` and two interleaved streams have in common. -/

namespace Sys2Proof.Machine

/-! ### Requests that leave ACC alone -/

/-- R23: a frame request returns one response, a function of its operands and of the parameters, and does nothing else. -/
theorem exec_frame_eq_respond {i : Instr}
    (hi : (∃ cnt addr cmd a, i = .frameEncode cnt addr cmd a) ∨ ∃ f, i = .frameDecode f) (c : Config) :
    ∃ st data, ∀ s : State, s.cfg = c → exec i s = .next (s.respond st data) := by
  obtain ⟨cnt, addr, cmd, a, rfl⟩ | ⟨f, rfl⟩ := hi
  · exact ⟨.ok, _, fun s hs => (exec_frameEncode cnt addr cmd a s).trans (by rw [hs])⟩
  · exact ⟨_, _, fun s _ => exec_frameDecode f s⟩

/-- An earlier response changes nothing in a later request's effect and response (R15). -/
theorem exec_respond {i : Instr} {s t : State} (h : exec i s = .next t) (st : Status) (data : List Byte) :
    ∃ u, exec i (s.respond st data) = .next u ∧ u.responses.getLast? = t.responses.getLast? ∧
      u = { t with responses := u.responses } := by
  obtain ⟨-, hinput, -⟩ := exec_next_frame h
  obtain ⟨r, hresp, hexec⟩ := exec_next_with_input_responses h
  refine ⟨{ t with responses := s.responses ++ [⟨st, data⟩] ++ [r] }, ?_, by simp [hresp], rfl⟩
  rw [State.respond, hexec, hinput]

/-- Settles O35: a frame request only adds its response, which no other request reads. -/
theorem frameRequestsArePure : Obligations.FrameRequestsArePure := by
  intro i hi
  refine ⟨fun c => ?_, fun j s t ht => ?_⟩
  · obtain ⟨st, data, hexec⟩ := exec_frame_eq_respond hi c
    exact ⟨⟨st, data⟩, hexec⟩
  · obtain ⟨st, data, hexec⟩ := exec_frame_eq_respond hi s.cfg
    obtain rfl := next_inj ((hexec s rfl).symm.trans ht)
    exact ⟨fun f hf => (exec_fault_iff j _ f).mpr ((exec_fault_iff j s f).mp hf), fun v hv => exec_respond hv st data⟩

/-- Settles O36: CRC_INIT writes constants, the others but CRC_UPDATE write no state their responses depend on; two
CRC_UPDATEs of 0x00 from 0xFFFF leave two different values. -/
theorem idempotentRequests : Obligations.IdempotentRequests := by
  refine ⟨fun i s t u hu ht hut => ?_, 0x00#8, State.reset, _, _, rfl, rfl, by decide +kernel⟩
  cases i with
  | crcInit =>
    obtain rfl := next_inj ht
    obtain rfl := next_inj hut
    simp
  | crcUpdate d => exact absurd rfl (hu d)
  | crcFinal =>
    obtain ⟨-, rfl⟩ := exec_crcFinal_next ht
    obtain ⟨-, rfl⟩ := exec_crcFinal_next hut
    simp
  | frameEncode cnt addr cmd a =>
    obtain rfl := next_inj ht
    obtain rfl := next_inj hut
    simp
  | frameDecode f =>
    obtain rfl := next_inj ht
    obtain rfl := next_inj hut
    simp

/-! ### While ACC holds no value (R21) -/

/-- A request performed while ACC holds no value neither reads nor writes it, or is CRC_INIT, which overwrites it. -/
theorem exec_setAcc_of_unreadable {i : Instr} {s t : State} (hr : s.accReadable = false) (h : exec i s = .next t)
    (a : Half) :
    exec i (s.setAcc a) = .next t ∨ (exec i (s.setAcc a) = .next (t.setAcc a) ∧ t.accReadable = false) := by
  obtain ⟨rfl, rfl⟩ | ⟨d, rfl, hread, -⟩ | ⟨rfl, hread, -⟩ | ⟨cnt, addr, cmd, args, rfl, rfl⟩ | ⟨f, rfl, rfl⟩ :=
    exec_next_cases h
  · exact .inl (exec_crcInit _)
  · simp [hr] at hread
  · simp [hr] at hread
  · exact .inr ⟨exec_frameEncode cnt addr cmd args _, hr⟩
  · exact .inr ⟨exec_frameDecode f _, hr⟩

theorem step_setAcc_of_unreadable {s t : State} (hr : s.accReadable = false) (h : step s = .next t) (a : Half) :
    step (s.setAcc a) = .next t ∨ (step (s.setAcc a) = .next (t.setAcc a) ∧ t.accReadable = false) := by
  obtain ⟨i, rest, hf, hexec⟩ | ⟨why, rest, hf, rfl⟩ | ⟨rest, hf, rfl⟩ | ⟨hf, rfl⟩ := step_next_cases h
  · rw [step_request (s := s.setAcc a) hf]
    exact exec_setAcc_of_unreadable (s := s.setInput rest) hr hexec a
  · exact .inr ⟨step_rejected hf, hr⟩
  · exact .inl (step_reset hf)
  · exact .inr ⟨step_hold hf, hr⟩

/-- Settles O26: whatever stands in an unwritten ACC, the step answers the same but for ACC itself, and not even that
once it holds a value. -/
theorem unwrittenAccIsInvisible : Obligations.UnwrittenAccIsInvisible := by
  intro s a hr
  refine ⟨fun f h => (step_fault_iff _ f).mpr ((step_fault_iff s f).mp h), fun t h => ?_⟩
  obtain hsame | ⟨hset, htr⟩ := step_setAcc_of_unreadable hr h a
  · exact ⟨t, hsame, rfl, rfl, rfl, fun _ => rfl⟩
  · exact ⟨_, hset, rfl, rfl, rfl, fun hread => by simp [htr] at hread⟩

/-! ### The two values of `ACC_RESET_KNOWN` (R99) -/

/-- The same block built with `ACC_RESET_KNOWN = false`, after a CRC_INIT has written its ACC. -/
def State.asUnknownWritten (s : State) : State :=
  { s with cfg := ⟨false, s.cfg.emptyArgsTerminator⟩, accValid := true }

theorem exec_asUnknownWritten {i : Instr} {s t : State} (h : exec i s = .next t) :
    exec i s.asUnknownWritten = .next t.asUnknownWritten := by
  obtain ⟨rfl, rfl⟩ | ⟨d, rfl, -, rfl⟩ | ⟨rfl, -, rfl⟩ | ⟨cnt, addr, cmd, args, rfl, rfl⟩ | ⟨f, rfl, rfl⟩ :=
    exec_next_cases h
  · rfl
  · exact exec_crcUpdate d _ rfl
  · exact exec_crcFinal _ rfl
  · rfl
  · rfl

/-- A whole request is answered, and alike by the block built with `ACC_RESET_KNOWN = false`. -/
theorem step_sent_asUnknownWritten {s : State} {r : Request} {rs : List Request} (hw : r.Whole)
    (hr : s.accReadable = true) (hin : s.input = sent (r :: rs)) :
    ∃ t, step s = .next t ∧ step s.asUnknownWritten = .next t.asUnknownWritten ∧ t.accReadable = true ∧
      t.input = sent rs := by
  cases r with
  | instr i =>
    obtain ⟨t, ht⟩ := exec_readable i (s := s.setInput (sent rs)) hr
    have hstep' := step_sent_instr (s := s.asUnknownWritten) hw hin
    exact ⟨t, (step_sent_instr hw hin).trans ht, hstep'.trans (exec_asUnknownWritten ht),
      exec_next_readable (s := s.setInput (sent rs)) hr ht, (exec_next_frame ht).2.1⟩
  | erroneous op opnd =>
    have hdec := decode_erroneous_append hw (rs.flatMap Request.bytes)
    have hbytes := hin.trans (sent_cons _ _)
    exact ⟨_, step_of_decode_rejected hbytes hdec,
      step_of_decode_rejected (s := s.asUnknownWritten) hbytes hdec, hr, rfl⟩

theorem runSteps_sent_asUnknownWritten {rs : List Request} (hrs : ∀ r ∈ rs, r.Whole) {s : State}
    (hr : s.accReadable = true) (hin : s.input = sent rs) :
    ∃ t, runSteps rs.length s = .next t ∧ runSteps rs.length s.asUnknownWritten = .next t.asUnknownWritten ∧
      t.input = [] := by
  induction rs generalizing s with
  | nil => exact ⟨s, rfl, rfl, hin⟩
  | cons r rs ih =>
    obtain ⟨hw, htail⟩ := List.forall_mem_cons.mp hrs
    obtain ⟨u, hstep, hstep', hur, huin⟩ := step_sent_asUnknownWritten hw hr hin
    obtain ⟨t, hrun, hrun', htin⟩ := ih htail hur huin
    exact ⟨t, (runSteps_succ_next hstep).trans hrun, (runSteps_succ_next hstep').trans hrun', htin⟩

/-- Settles O27: CRC_INIT leaves the two blocks alike but for the parameter and acc_valid, and every later request keeps
them so. -/
theorem initFirstIsPortable : Obligations.InitFirstIsPortable := by
  intro e rs hrs
  have hinit (c : Config) := (step_sent_instr (s := (State.resetWith c).setInput (sent (.instr .crcInit :: rs)))
    (i := .crcInit) rfl rfl).trans (exec_crcInit _)
  obtain ⟨t, hrun, hrun', htin⟩ := runSteps_sent_asUnknownWritten hrs (s := State.respond .ok []
    ((((State.resetWith ⟨true, e⟩).setInput (sent rs)).setAcc accInit).markAccWritten)) (by simp) rfl
  exact ⟨t, t.asUnknownWritten, (runSteps_succ_next (hinit ⟨true, e⟩)).trans hrun,
    (runSteps_succ_next (hinit ⟨false, e⟩)).trans hrun', htin, htin, rfl, rfl⟩

/-! ### Two streams (R101) -/

theorem updates_whole_ne_crcInit (bs : List Byte) : ∀ r ∈ updates bs, r.Whole ∧ r ≠ .instr .crcInit := by
  intro r hr
  obtain ⟨b, -, rfl⟩ := List.mem_map.mp hr
  exact ⟨rfl, by simp⟩

/-- Settles O24: the second CRC_INIT starts the accumulator afresh, and B's CRC_FINAL does not, so that A's CRC_FINAL
returns what both have hashed since. -/
theorem interleavedStreamsShareAcc : Obligations.InterleavedStreamsShareAcc := by
  intro s p q r hin
  simp only [List.append_assoc, List.cons_append] at hin
  obtain ⟨s₁, hinit, hread₁, hin₁, -, -⟩ := step_sent_crcInit hin
  obtain ⟨s₂, hupdates, -, hin₂, -, -⟩ := runSteps_sent_of_ne_crcInit (updates_whole_ne_crcInit p) _ hread₁ hin₁
  obtain ⟨s₃, hinit', hread₃, hin₃, hacc₃, -⟩ := step_sent_crcInit hin₂
  obtain ⟨s₄, hfinal, hread₄, hin₄, hacc₄, -⟩ := runSteps_updates_crcFinal_append q _ hread₃ hin₃
  obtain ⟨t, hrun, hlast, -⟩ := runSteps_updates_crcFinal r hread₄ hin₄
  refine ⟨t, ?_, ?_⟩
  · calc runSteps (p.length + q.length + r.length + 4) s
      _ = runSteps ((updates p).length + (q.length + (r.length + 1 + 1) + 1) + 1) s := by
        rw [updates, List.length_map]
        congr 1
        omega
      _ = .next t := by rw [runSteps_succ_next hinit, hupdates, runSteps_succ_next hinit', hfinal, hrun]
  · rw [hlast, hacc₄, hacc₃, ← crcAccum_append, ← crc16]

/-! ### CRC_UPDATE and the reset values -/

/-- Settles O17: CRC_UPDATE writes ACC wherever it holds a value, and a reserved count rejects it with its byte taken in. -/
theorem crcUpdateRule : Obligations.CrcUpdateRule :=
  ⟨fun d s h => exec_crcUpdate d s (s.accReadable_iff.mpr h), fun _ => rfl,
    fun _ _ d _ hlo hhi hin => step_reserved_count (op := 2) (opnd := [d]) rfl (by decide) rfl hlo hhi hin,
    by decide +kernel, by decide +kernel⟩

/-- Settles O1: reset gives ACC its value under `ACC_RESET_KNOWN = true` and leaves it unreadable under `false`. -/
theorem resetStateValues : Obligations.ResetStateValues :=
  ⟨rfl, fun c => ⟨rfl, rfl, rfl, rfl, fun hc => ⟨accAfterReset_known c 0 hc, by simp [hc]⟩, fun hc => by simp [hc]⟩⟩

end Sys2Proof.Machine
end

section
/-! PROOFS. What the CRC detects: the bit step is a linear injection of the accumulator, so that two payloads are told
apart by the CRC of their difference. -/

namespace Sys2Proof.Machine

/-! ### Hashing bits -/

/-- The accumulator after n data bits, bit 0 first. -/
def crcBits (a : Half) (d : Nat → Bool) (n : Nat) : Half := (List.range n).foldl (fun x i => crcStepBit x (d i)) a

theorem crcBits_succ (a : Half) (d : Nat → Bool) (n : Nat) :
    crcBits a d (n + 1) = crcStepBit (crcBits a d n) (d n) := by
  simp [crcBits, List.range_succ]

theorem crcBits_add (a : Half) (d : Nat → Bool) (m n : Nat) :
    crcBits a d (m + n) = crcBits (crcBits a d m) (fun i => d (m + i)) n := by
  simp [crcBits, List.range_add, List.foldl_map]

/-- The low n bits of the data are all that n steps see. -/
theorem crcBits_congr (a : Half) {d e : Nat → Bool} {n : Nat} (h : ∀ i < n, d i = e i) :
    crcBits a d n = crcBits a e n := by
  induction n with
  | zero => rfl
  | succ n ih => rw [crcBits_succ, crcBits_succ, ih fun i hi => h i (Nat.lt_succ_of_lt hi), h n (Nat.lt_succ_self n)]

/-! ### The byte step is an injection -/

/-- The bit step of a data bit 0 (R59). -/
def crcShift (a : Half) : Half := crcStepBit a false

/-- A bit step loses nothing of the accumulator: the bit shifted out is bit 15 of the result. -/
theorem crcShift_injective : Function.Injective crcShift := by
  intro a a' h
  have hlow : a.getLsbD 0 = a'.getLsbD 0 := by
    have h15 := congrArg (fun x : Half => x.getLsbD 15) h
    simpa only [crcShift, crcStepBit_getLsbD_fifteen, Bool.xor_false] using h15
  have hshift : a >>> 1 = a' >>> 1 := by
    unfold crcShift at h
    cases hd : (a.getLsbD 0 ^^ false) with
    | true => rwa [crcStepBit_of_feedback hd, crcStepBit_of_feedback (hlow ▸ hd), BitVec.xor_left_inj] at h
    | false => rwa [crcStepBit_of_no_feedback hd, crcStepBit_of_no_feedback (hlow ▸ hd)] at h
  apply BitVec.eq_of_getLsbD_eq
  intro i _
  cases i with
  | zero => exact hlow
  | succ i =>
    have hi := congrArg (fun x : Half => x.getLsbD i) hshift
    simpa only [BitVec.getLsbD_ushiftRight, Nat.add_comm 1 i] using hi

/-- n bit steps of data bits 0. -/
def crcShifts (n : Nat) (a : Half) : Half := crcBits a (fun _ => false) n

theorem crcShifts_succ (n : Nat) (a : Half) : crcShifts (n + 1) a = crcShift (crcShifts n a) :=
  crcBits_succ a _ n

theorem crcShifts_add (m n : Nat) (a : Half) : crcShifts (m + n) a = crcShifts n (crcShifts m a) :=
  crcBits_add a _ m n

theorem crcShifts_injective (n : Nat) : Function.Injective (crcShifts n) := by
  induction n with
  | zero => exact fun _ _ h => h
  | succ n ih =>
    intro a a' h
    rw [crcShifts_succ, crcShifts_succ] at h
    exact ih (crcShift_injective h)

/-- The byte step sees accumulator and byte only through the XOR of the two, and loses nothing of that (R60). -/
theorem crcStepByte_eq_iff (a a' : Half) (b b' : Byte) :
    crcStepByte a b = crcStepByte a' b' ↔ a ^^^ b.setWidth 16 = a' ^^^ b'.setWidth 16 := by
  rw [crcStepByte_eq_foldl_shift, crcStepByte_eq_foldl_shift]
  exact ⟨fun h => crcShifts_injective 8 h, fun h => by rw [h]⟩

theorem crcStepByte_injective_byte (a : Half) : Function.Injective (crcStepByte a) := by
  intro b b' h
  have hwide := (BitVec.xor_right_inj a).mp ((crcStepByte_eq_iff a a b b').mp h)
  simpa using congrArg (BitVec.setWidth 8) hwide

theorem crcStepByte_injective_acc (b : Byte) : Function.Injective fun a => crcStepByte a b :=
  fun a a' h => (BitVec.xor_left_inj _).mp ((crcStepByte_eq_iff a a' b b).mp h)

/-- What is hashed after two different accumulators keeps them apart. -/
theorem crcAccum_injective (s : List Byte) : Function.Injective fun a => crcAccum a s := by
  induction s with
  | nil => exact fun _ _ h => h
  | cons b s ih => exact ih.comp (crcStepByte_injective_acc b)

/-- Settles O11: the byte step is a bijection of the XOR of accumulator and byte. -/
theorem byteStepIsInjective : Obligations.ByteStepIsInjective :=
  ⟨fun a _ _ h => crcStepByte_injective_byte a h, fun _ _ b h => crcStepByte_injective_acc b h,
    fun a _ _ h h' => crcStepByte_injective_byte a (h.trans h'.symm)⟩

/-- Settles O14: the changed byte leaves another accumulator, and the bytes after it keep the two apart. -/
theorem singleByteChangeChangesCrc : Obligations.SingleByteChangeChangesCrc := by
  intro p i b hi hb hcrc
  have hsplit : p = p.take i ++ p[i] :: p.drop (i + 1) := by
    rw [← List.drop_eq_getElem_cons hi, List.take_append_drop]
  have haccum : crcAccum accInit (p.set i b) = crcAccum accInit p := BitVec.not_inj.mp hcrc
  rw [List.set_eq_take_append_cons_drop, if_pos hi] at haccum
  conv at haccum => rhs; rw [hsplit]
  simp only [crcAccum_append, crcAccum_cons] at haccum
  have hbyte := crcStepByte_injective_byte _ (crcAccum_injective _ haccum)
  exact hb (by rw [List.getElem?_eq_getElem hi, hbyte])

/-! ### The bits of a frame -/

/-- Hashing a byte that stands at a bit position of a longer word. -/
theorem crcStepByte_extractLsb' (a : Half) (w : BitVec 64) (start : Nat) :
    crcStepByte a (w.extractLsb' start 8) = crcBits a (fun i => w.getLsbD (start + i)) 8 :=
  crcBits_congr (d := (w.extractLsb' start 8).getLsbD) a fun i hi => by simp [hi]

/-- The payload's 48 bits in order are the frame's first 48. -/
theorem crcAccum_inboundPayload_frameOfBits (a : Half) (w : BitVec 64) :
    crcAccum a (inboundPayload (frameOfBits w)) = crcBits a w.getLsbD 48 := by
  have hbyte (n : Nat) : crcStepByte (crcBits a w.getLsbD n) (w.extractLsb' n 8) = crcBits a w.getLsbD (n + 8) := by
    rw [crcStepByte_extractLsb', crcBits_add]
  calc crcAccum a (inboundPayload (frameOfBits w))
    _ = crcStepByte (crcStepByte (crcStepByte (crcStepByte (crcStepByte (crcStepByte (crcBits a w.getLsbD 0)
          (w.extractLsb' 0 8)) (w.extractLsb' 8 8)) (w.extractLsb' 16 8)) (w.extractLsb' 24 8)) (w.extractLsb' 32 8))
          (w.extractLsb' 40 8) := rfl
    _ = crcBits a w.getLsbD 48 := by simp only [hbyte]

/-! ### The CRC of a difference -/

theorem crcStepBit_eq_xor (a : Half) (d : Bool) :
    crcStepBit a d = (a >>> 1) ^^^ (bif a.getLsbD 0 ^^ d then 0x8408#16 else 0#16) := by
  cases h : (a.getLsbD 0 ^^ d) with
  | true => exact crcStepBit_of_feedback h
  | false => simpa using crcStepBit_of_no_feedback h

/-- The bit step is linear. -/
theorem crcStepBit_xor_xor (x y : Half) (d e : Bool) :
    crcStepBit (x ^^^ y) (d ^^ e) = crcStepBit x d ^^^ crcStepBit y e := by
  have hbit : ((x ^^^ y).getLsbD 0 ^^ (d ^^ e)) = ((x.getLsbD 0 ^^ d) ^^ (y.getLsbD 0 ^^ e)) := by
    rw [BitVec.getLsbD_xor, Bool.xor_assoc, Bool.xor_assoc, Bool.xor_left_comm (y.getLsbD 0)]
  have hfeedback (p q : Bool) : (bif p ^^ q then 0x8408#16 else 0#16) =
      (bif p then 0x8408#16 else 0#16) ^^^ (bif q then 0x8408#16 else 0#16) := by
    cases p <;> cases q <;> decide
  rw [crcStepBit_eq_xor, crcStepBit_eq_xor x, crcStepBit_eq_xor y, hbit, hfeedback, BitVec.ushiftRight_xor_distrib]
  ac_rfl

theorem crcBits_xor (x y : Half) (d e : Nat → Bool) (n : Nat) :
    crcBits (x ^^^ y) (fun i => d i ^^ e i) n = crcBits x d n ^^^ crcBits y e n := by
  induction n with
  | zero => rfl
  | succ n ih => simp only [crcBits_succ, ih, crcStepBit_xor_xor]

/-- The change that an error pattern of a frame's bits makes to the CRC of its payload. -/
def syndrome (e : BitVec 64) : Half := crcBits 0#16 e.getLsbD 48

theorem crc16_inboundPayload_xor (w e : BitVec 64) :
    crc16 (inboundPayload (frameOfBits (w ^^^ e))) = crc16 (inboundPayload (frameOfBits w)) ^^^ syndrome e := by
  have hbits : (w ^^^ e).getLsbD = fun i => w.getLsbD i ^^ e.getLsbD i := funext fun i => BitVec.getLsbD_xor
  have haccum := crcBits_xor accInit 0#16 w.getLsbD e.getLsbD 48
  rw [BitVec.xor_zero, ← hbits] at haccum
  rw [crc16, crc16, crcAccum_inboundPayload_frameOfBits, crcAccum_inboundPayload_frameOfBits, haccum,
    BitVec.not_xor_left, syndrome]

theorem syndrome_xor (e f : BitVec 64) : syndrome (e ^^^ f) = syndrome e ^^^ syndrome f := by
  have hbits : (e ^^^ f).getLsbD = fun i => e.getLsbD i ^^ f.getLsbD i := funext fun i => BitVec.getLsbD_xor
  rw [syndrome, hbits]
  exact crcBits_xor 0#16 0#16 e.getLsbD f.getLsbD 48

/-- A data bit 1 does to an accumulator of 0 what a data bit 0 does to one of 1. -/
theorem crcStepBit_zero_true : crcStepBit 0#16 true = crcShift 1#16 := by decide

theorem crcShift_zero : crcShift 0#16 = 0#16 := by decide

theorem crcShifts_zero (n : Nat) : crcShifts n 0#16 = 0#16 := by
  induction n with
  | zero => rfl
  | succ n ih => rw [crcShifts_succ, ih, crcShift_zero]

/-- One wrong bit among n: nothing is seen before it, and every bit after it shifts it on. -/
theorem crcBits_single (k n : Nat) :
    crcBits 0#16 (fun i => decide (i = k)) n = if k < n then crcShifts (n - k) 1#16 else 0#16 := by
  induction n with
  | zero => rfl
  | succ n ih =>
    rw [crcBits_succ, ih]
    obtain hlt | rfl | hgt := Nat.lt_trichotomy k n
    · rw [if_pos hlt, if_pos (Nat.lt_succ_of_lt hlt), Nat.succ_sub (Nat.le_of_lt hlt), crcShifts_succ, decide_eq_false (Nat.ne_of_gt hlt)]
      rfl
    · rw [if_neg (Nat.lt_irrefl k), if_pos (Nat.lt_succ_self k), Nat.add_sub_cancel_left, decide_eq_true rfl,
        crcStepBit_zero_true]
      rfl
    · rw [if_neg (by omega), if_neg (by omega), decide_eq_false (Nat.ne_of_lt hgt)]
      exact crcShift_zero

theorem syndrome_single (k : Nat) :
    syndrome (1#64 <<< k) = if k < 48 then crcShifts (48 - k) 1#16 else 0#16 := by
  rw [← crcBits_single, syndrome]
  apply crcBits_congr
  intro i hi
  rw [BitVec.getLsbD_shiftLeft, BitVec.getLsbD_one, Bool.eq_iff_iff]
  simp only [Bool.and_eq_true, Bool.not_eq_true', decide_eq_true_eq, decide_eq_false_iff_not]
  omega

/-- Shifted on, a one never vanishes. -/
theorem crcShifts_one_ne_zero (n : Nat) : crcShifts n 1#16 ≠ 0#16 := by
  rw [← crcShifts_zero n]
  intro h
  exact absurd (crcShifts_injective n h) (by decide)

/-- Within 48 shifts a one does not come back: the order of x modulo the CRC polynomial is larger. -/
theorem crcShifts_one_ne_one : ∀ n < 48, 0 < n → crcShifts n 1#16 ≠ 1#16 := by
  decide +kernel

/-- Settles O15: two wrong bits cancel only if the later one, shifted on by their distance, is itself again. -/
theorem twoBitErrorsChangeCrc : Obligations.TwoBitErrorsChangeCrc := by
  intro w j k hjk hk hcrc
  rw [BitVec.xor_assoc, crc16_inboundPayload_xor, syndrome_xor] at hcrc
  have hpair : syndrome (1#64 <<< j) = syndrome (1#64 <<< k) := by
    rw [← BitVec.xor_eq_zero_iff, ← BitVec.xor_right_inj (crc16 (inboundPayload (frameOfBits w))), BitVec.xor_zero]
    exact hcrc
  rw [syndrome_single, syndrome_single, if_pos (Nat.lt_trans hjk hk), if_pos hk,
    show 48 - j = (k - j) + (48 - k) by omega, crcShifts_add] at hpair
  exact crcShifts_one_ne_one (k - j) (by omega) (by omega) (crcShifts_injective _ hpair)

end Sys2Proof.Machine
end

section
/-! PROOFS. Frames: the packing of a CRC into two bytes and back, which inbound frames are accepted, and how arguments
fill an outbound payload. -/

namespace Sys2Proof.Machine

/-! ### The 16-bit packing (R8) -/

/-- The second byte is the high one. -/
theorem fromLe16_eq_append (x y : Byte) : fromLe16 x y = y ++ x := by
  apply BitVec.eq_of_getLsbD_eq
  intro i hi
  simp only [fromLe16, BitVec.getLsbD_or, BitVec.getLsbD_setWidth, BitVec.getLsbD_shiftLeft, BitVec.getLsbD_append]
  by_cases h : i < 8
  · simp [h, hi]
  · simp [h, hi, show i - 8 < 16 by omega, BitVec.getLsbD_of_ge x i (by omega)]

theorem le16_fromLe16 (x y : Byte) : le16 (fromLe16 x y) = [x, y] := by
  rw [fromLe16_eq_append, le16, lo8, hi8, BitVec.extractLsb'_append_eq_right, BitVec.extractLsb'_append_eq_left]

theorem fromLe16_lo8_hi8 (a : Half) : fromLe16 (lo8 a) (hi8 a) = a := by
  rw [fromLe16_eq_append]
  exact BitVec.extractLsb'_append_extractLsb'

/-- Settles O13: packing concatenates the two bytes, and the extractions take them apart again. -/
theorem littleEndianPacking : Obligations.LittleEndianPacking :=
  ⟨fun _ => rfl, fun _ _ => rfl, le16_fromLe16, fromLe16_lo8_hi8⟩

/-- Settles O12: the CRC function runs on the three byte lists. -/
theorem sourceCrcVectors : Obligations.SourceCrcVectors :=
  ⟨by decide +kernel, by decide +kernel, by decide +kernel⟩

/-! ### Inbound frames -/

theorem frameStatus_eq_ok_iff (crcCalc crcRx : Half) : frameStatus crcCalc crcRx = .ok ↔ crcCalc = crcRx := by
  simp [frameStatus]

theorem frameStatus_of_ne {crcCalc crcRx : Half} (h : crcCalc ≠ crcRx) : frameStatus crcCalc crcRx = .crcFail :=
  if_neg h

/-- A FRAME_DECODE is answered with the comparison of its two CRCs. -/
theorem exec_frameDecode_status {f : InFrame} {s t : State} (h : exec (.frameDecode f) s = .next t) :
    t.responses.getLast?.map Response.status = some (frameStatus (crc16 (inboundPayload f)) (crcRx f)) := by
  obtain rfl := next_inj ((exec_frameDecode f s).symm.trans h)
  simp

theorem exec_frameDecode_ok {f : InFrame} (h : crc16 (inboundPayload f) = crcRx f) (s : State) :
    exec (.frameDecode f) s =
      .next (s.respond .ok (inboundPayload f ++ le16 (crcRx f) ++ le16 (crc16 (inboundPayload f)))) := by
  rw [exec_frameDecode, (frameStatus_eq_ok_iff _ _).mpr h]

/-- Settles O33: the CRC's two bytes are read back as the CRC, and the answer begins with the payload. -/
theorem frameRoundTrip : Obligations.FrameRoundTrip := by
  intro b0 b1 b2 b3 b4 b5 s
  exact ⟨_, exec_frameDecode_ok (fromLe16_lo8_hi8 _).symm s, _, rfl, rfl⟩

/-- The transmitted CRC is a frame's last 16 bits. -/
theorem crcRx_frameOfBits (w : BitVec 64) : crcRx (frameOfBits w) = w.extractLsb' 48 16 :=
  (fromLe16_eq_append _ _).trans (BitVec.extractLsb'_append_extractLsb'_eq_extractLsb' rfl)

/-- A flipped bit is a bit of the payload, whose CRC changes, or one of the transmitted CRC. -/
theorem syndrome_single_ne_extractLsb' {k : Nat} (hk : k < 64) :
    syndrome (1#64 <<< k) ≠ (1#64 <<< k).extractLsb' 48 16 := by
  have hbit (i : Nat) : ((1#64 <<< k).extractLsb' 48 16).getLsbD i = decide (i < 16 ∧ 48 + i = k) := by
    rw [BitVec.getLsbD_extractLsb', BitVec.getLsbD_shiftLeft, BitVec.getLsbD_one, Bool.eq_iff_iff]
    simp only [Bool.and_eq_true, Bool.not_eq_true', decide_eq_true_eq, decide_eq_false_iff_not]
    omega
  rw [syndrome_single]
  split
  · next hpayload =>
    have hzero : (1#64 <<< k).extractLsb' 48 16 = 0#16 :=
      BitVec.eq_of_getLsbD_eq fun i _ => by rw [hbit, BitVec.getLsbD_zero, decide_eq_false (by omega)]
    rw [hzero]
    exact crcShifts_one_ne_zero _
  · intro hzero
    have hset := hbit (k - 48)
    rw [← hzero, BitVec.getLsbD_zero, decide_eq_true (by omega)] at hset
    cases hset

/-- Settles O34: the flip changes the computed and the transmitted CRC by two different values. -/
theorem everySingleBitFlipIsDetected : Obligations.EverySingleBitFlipIsDetected := by
  intro w k s t u hk ht hok hu
  rw [exec_frameDecode_status ht, Option.some_inj, frameStatus_eq_ok_iff] at hok
  rw [exec_frameDecode_status hu, frameStatus_of_ne]
  rw [crc16_inboundPayload_xor, hok, crcRx_frameOfBits, crcRx_frameOfBits, BitVec.extractLsb'_xor]
  exact fun h => syndrome_single_ne_extractLsb' hk ((BitVec.xor_right_inj _).mp h)

/-- The bytes of a FRAME_DECODE are answered with the comparison's status, the payload and both CRCs. -/
theorem step_frameDecode_bytes {s : State} {bs : List Byte} {f : InFrame}
    (hdec : decode bs = .request (.frameDecode f) []) (hin : s.input = bs.map HostEvent.byte) :
    ∃ t, step s = .next t ∧ t.responses.getLast?.map Response.bytes =
      some ((frameStatus (crc16 (inboundPayload f)) (crcRx f)).code ::
        (inboundPayload f ++ le16 (crcRx f) ++ le16 (crc16 (inboundPayload f)))) :=
  ⟨_, (stepRunsTheDecodedRequest.1 s _ bs [] hdec hin).trans (exec_frameDecode f _), by simp [Response.bytes]⟩

/-- Settles O32: both frames are read as FRAME_DECODEs and answered with the bytes the spec gives. -/
theorem frameDecodeVectors : Obligations.FrameDecodeVectors := by
  refine fun s => ⟨fun hin => ?_, fun hin => ?_⟩
  · obtain ⟨t, hstep, hlast⟩ := step_frameDecode_bytes
      (f := ⟨0x00#8, 0x06#8, 0x02#8, 0x07#8, 0x02#8, 0x00#8, 0xD4#8, 0x4A#8⟩) (by decide) hin
    exact ⟨t, hstep, hlast.trans (by decide +kernel)⟩
  · obtain ⟨t, hstep, hlast⟩ := step_frameDecode_bytes
      (f := ⟨0x00#8, 0x00#8, 0x00#8, 0x00#8, 0x00#8, 0x00#8, 0x00#8, 0x00#8⟩) (by decide) hin
    exact ⟨t, hstep, hlast.trans (by decide +kernel)⟩

/-! ### Outbound frames -/

/-- Where an argument list ends in a terminator, neither parameter shows in its slots (R75). -/
theorem slotByte_terminated {e : Bool} {n : Nat} (h : 0 < n ∨ e = true) (k : Nat) (arg : Byte) :
    slotByte e n k arg = if k < n then arg else if k = n then 0x00#8 else 0x20#8 := by
  obtain hn | rfl := h
  · simp [slotByte, hn, Nat.ne_of_gt hn]
  · cases n <;> simp [slotByte]

/-- With no argument and no terminator every slot is padding (R75). -/
theorem slotByte_unterminated (k : Nat) (arg : Byte) : slotByte false 0 k arg = 0x20#8 := by
  simp [slotByte]

theorem effectiveCount_of_le_six {cnt : Nat} (h : cnt ≤ 6) : effectiveCount cnt = cnt :=
  Nat.min_eq_left h

/-- Two FRAME_ENCODEs with one payload are one. -/
theorem exec_frameEncode_congr {cnt cnt' : Nat} {addr cmd : Byte} {a b : Args} {s : State}
    (h : outboundPayload s.cfg.emptyArgsTerminator (effectiveCount cnt) addr cmd a =
      outboundPayload s.cfg.emptyArgsTerminator (effectiveCount cnt') addr cmd b) :
    exec (.frameEncode cnt addr cmd a) s = exec (.frameEncode cnt' addr cmd b) s := by
  rw [exec_frameEncode, exec_frameEncode, h]

/-- Settles O30: the shorter list's terminator and padding are the bytes the longer one has in those slots. -/
theorem shortFrameEqualsPaddedFrame : Obligations.ShortFrameEqualsPaddedFrame := by
  refine ⟨fun k addr cmd a b s hk hterm h0 h1 h2 h3 h4 h5 => exec_frameEncode_congr ?_,
    fun addr cmd a s hterm => exec_frameEncode_congr ?_⟩
  · have hfirst : (if 0 < k then a.a0 else if 0 = k then 0x00#8 else 0x20#8) = b.a0 := by
      rw [h0]
      split
      · rfl
      · exact if_pos (by omega)
    rw [effectiveCount_of_le_six (Nat.le_of_lt hk), effectiveCount_of_six_le (Nat.le_refl 6), outboundPayload_six]
    simp only [outboundPayload, slotByte_terminated hterm, hfirst, ← h1, ← h2, ← h3, ← h4, ← h5]
  · rw [effectiveCount_of_six_le (Nat.le_refl 6), outboundPayload_six, hterm]
    simp [outboundPayload, effectiveCount, slotByte_unterminated]

/-- The six slots of an outbound payload for an assembler's argument list: the first six arguments, the terminator, the
padding (R74, R75). -/
def argumentSlots (emptyArgsTerminator : Bool) (args : List Byte) : List Byte :=
  args.take 6 ++
    (if args.length < 6 then
      (if args = [] ∧ emptyArgsTerminator = false then 0x20#8 else 0x00#8) :: List.replicate (5 - args.length) 0x20#8
    else [])

/-- The argument bytes the assembler sends are six, and their slots are those of the list. -/
theorem exists_args_of_list (args : List Byte) :
    ∃ a : Args, args.take 6 ++ List.replicate (6 - args.length) 0x20#8 = [a.a0, a.a1, a.a2, a.a3, a.a4, a.a5] ∧
      ∀ e addr cmd, outboundPayload e (effectiveCount args.length) addr cmd a = addr :: cmd :: argumentSlots e args :=
  match args with
  | [] => ⟨⟨0x20#8, 0x20#8, 0x20#8, 0x20#8, 0x20#8, 0x20#8⟩, rfl, fun e addr cmd => by cases e <;> rfl⟩
  | [x0] => ⟨⟨x0, 0x20#8, 0x20#8, 0x20#8, 0x20#8, 0x20#8⟩, rfl, fun _ _ _ => rfl⟩
  | [x0, x1] => ⟨⟨x0, x1, 0x20#8, 0x20#8, 0x20#8, 0x20#8⟩, rfl, fun _ _ _ => rfl⟩
  | [x0, x1, x2] => ⟨⟨x0, x1, x2, 0x20#8, 0x20#8, 0x20#8⟩, rfl, fun _ _ _ => rfl⟩
  | [x0, x1, x2, x3] => ⟨⟨x0, x1, x2, x3, 0x20#8, 0x20#8⟩, rfl, fun _ _ _ => rfl⟩
  | [x0, x1, x2, x3, x4] => ⟨⟨x0, x1, x2, x3, x4, 0x20#8⟩, rfl, fun _ _ _ => rfl⟩
  | x0 :: x1 :: x2 :: x3 :: x4 :: x5 :: xs => ⟨⟨x0, x1, x2, x3, x4, x5⟩, by simp, fun e addr cmd => by
      rw [effectiveCount_of_six_le (by simp), outboundPayload_six]
      simp [argumentSlots]⟩

/-- Settles O41: the assembler pads the argument bytes to six and sends their count, from which the block finds the
terminator's slot. -/
theorem assembledFrameEncode : Obligations.AssembledFrameEncode := by
  refine ⟨fun addr cmd args hlen => ?_, fun addr cmd args hlen => if_neg (Nat.not_le_of_gt hlen),
    fun frame hlen => if_neg hlen⟩
  obtain ⟨a, hoperands, hpayload⟩ := exists_args_of_list args
  have hbytes : AsmLine.bytes (.frameEncode addr cmd args) = some (encode (.frameEncode args.length addr cmd a)) :=
    (if_pos hlen).trans (by rw [hoperands]; rfl)
  have hdec := decode_encode_append (i := .frameEncode args.length addr cmd a) (decide_eq_true hlen) []
  rw [List.append_nil] at hdec
  refine ⟨_, a, hbytes, hdec, fun s => ⟨_, exec_frameEncode _ _ _ _ s, ?_, ?_⟩⟩
  · exact (congrArg List.length (hpayload s.cfg.emptyArgsTerminator addr cmd)).symm
  · rw [hpayload]
    rfl

end Sys2Proof.Machine
end
